-- ==== Sys2Proof/Word.lean ====
section
/-! DEFINITION. The widths of the machine: half-words, cells, the accumulator, tape codes, the mode
flag and the views it selects (00_scope.md R5, R6, R9; 10_state.md R17, R21). Bits are numbered from
0 at the least significant end (R6), as `BitVec` numbers them. -/

namespace Sys2Proof

/-- The 17-bit half-word, the unit an order is written in (R5 `W_HALF`, R12). -/
abbrev HalfWord := BitVec 17

/-- The 35-bit full word, one cell of the memory bank and the width of the multiplier (R5 `W_FULL`, `W_MR`). -/
abbrev FullWord := BitVec 35

/-- The 71-bit canonical accumulator (R5 `W_ACC`). -/
abbrev AccWord := BitVec 71

/-- A 5-bit code of the tape, the output, or an order's letter (R5, R27). -/
abbrev Code := BitVec 5

/-- The mode flag of an order: 0 = short, 1 = long (R12 "mode flag"). -/
inductive Mode where
  | short
  | long
  deriving DecidableEq, Repr

/-- The three views of the accumulator, modes 0, 1 and 2 (R13, R17). -/
inductive AccView where
  | upper17
  | upper35
  | full
  deriving DecidableEq, Repr

/-- WA: the width of an accumulator view (R9). -/
abbrev AccView.width : AccView → Nat
  | .upper17 => 17
  | .upper35 => 35
  | .full => 71

/-- The accumulator view an order of mode m works on: view m (R9). -/
abbrev Mode.accView : Mode → AccView
  | .short => .upper17
  | .long => .upper35

/-- The accumulator view V and N work on: view m+1 (R9, R85, R86). -/
abbrev Mode.productView : Mode → AccView
  | .short => .upper35
  | .long => .full

/-- WM and WR: the width of a memory access and of a multiplier view, 17 or 35, equal to WA of view m (R9). -/
abbrev Mode.width (m : Mode) : Nat := m.accView.width

end Sys2Proof
end

