-- ==== Sys2Proof/Syntax.lean ====
section
/-! DEFINITION. The orders as syntax: one constructor of `Instr` per row of the opcode table
(30_encoding.md R58), each with the three remaining fields of the one format (R55): the spare bit,
the address field and the mode flag. Also the letters of the tape codec (R57). -/

namespace Sys2Proof

/-- The 26 letters of the codec (30_encoding.md R57). Eighteen of them head orders. -/
inductive Letter where
  | A | B | C | D | E | F | G | H | I | J | K | L | M
  | N | O | P | Q | R | S | T | U | V | W | X | Y | Z
  deriving DecidableEq, Repr

/-- An order: its letter as the constructor, then the fields of R55: the spare bit `sp` (w[11]), the
address field `n` (w[10:1]) and the mode flag `m` (w[0]). Orders that ignore a field (R63) still hold
it, so that no bit of a word is lost. -/
inductive Instr where
  /-- A: add memory to accumulator view m (R82). -/
  | a (sp : Bool) (n : BitVec 10) (m : Mode)
  /-- S: subtract memory from accumulator view m (R83). -/
  | s (sp : Bool) (n : BitVec 10) (m : Mode)
  /-- H: load multiplier view m (R84). -/
  | h (sp : Bool) (n : BitVec 10) (m : Mode)
  /-- V: multiply and add to view m+1 (R85). -/
  | v (sp : Bool) (n : BitVec 10) (m : Mode)
  /-- N: multiply and subtract from view m+1 (R86). -/
  | n (sp : Bool) (n : BitVec 10) (m : Mode)
  /-- U: store accumulator view m (R87). -/
  | u (sp : Bool) (n : BitVec 10) (m : Mode)
  /-- T: store accumulator view m and clear the accumulator (R88). -/
  | t (sp : Bool) (n : BitVec 10) (m : Mode)
  /-- C: collate, add memory AND multiplier (R89). -/
  | c (sp : Bool) (n : BitVec 10) (m : Mode)
  /-- R: shift the accumulator right (R90); the three fields hold the count (R62). -/
  | r (sp : Bool) (n : BitVec 10) (m : Mode)
  /-- L: shift the accumulator left (R91); the three fields hold the count (R62). -/
  | l (sp : Bool) (n : BitVec 10) (m : Mode)
  /-- E: jump to n if the accumulator is non-negative (R92). -/
  | e (sp : Bool) (n : BitVec 10) (m : Mode)
  /-- G: jump to n if the accumulator is negative (R93). -/
  | g (sp : Bool) (n : BitVec 10) (m : Mode)
  /-- I: read a tape code into memory (R94). -/
  | i (sp : Bool) (n : BitVec 10) (m : Mode)
  /-- O: write a code of memory to the output (R95). -/
  | o (sp : Bool) (n : BitVec 10) (m : Mode)
  /-- F: write the last output code into memory (R96). -/
  | f (sp : Bool) (n : BitVec 10) (m : Mode)
  /-- X: no operation (R97). -/
  | x (sp : Bool) (n : BitVec 10) (m : Mode)
  /-- Y: round (R98). -/
  | y (sp : Bool) (n : BitVec 10) (m : Mode)
  /-- Z: stop (R99). -/
  | z (sp : Bool) (n : BitVec 10) (m : Mode)
  deriving DecidableEq, Repr

namespace Instr

/-- The letter an order is written with. -/
def letter : Instr → Letter
  | .a .. => .A | .s .. => .S | .h .. => .H | .v .. => .V | .n .. => .N | .u .. => .U
  | .t .. => .T | .c .. => .C | .r .. => .R | .l .. => .L | .e .. => .E | .g .. => .G
  | .i .. => .I | .o .. => .O | .f .. => .F | .x .. => .X | .y .. => .Y | .z .. => .Z

/-- The spare bit of an order (R55). -/
def spare : Instr → Bool
  | .a sp _ _ | .s sp _ _ | .h sp _ _ | .v sp _ _ | .n sp _ _ | .u sp _ _ | .t sp _ _
  | .c sp _ _ | .r sp _ _ | .l sp _ _ | .e sp _ _ | .g sp _ _ | .i sp _ _ | .o sp _ _
  | .f sp _ _ | .x sp _ _ | .y sp _ _ | .z sp _ _ => sp

/-- The address field of an order (R55). -/
def address : Instr → BitVec 10
  | .a _ adr _ | .s _ adr _ | .h _ adr _ | .v _ adr _ | .n _ adr _ | .u _ adr _ | .t _ adr _
  | .c _ adr _ | .r _ adr _ | .l _ adr _ | .e _ adr _ | .g _ adr _ | .i _ adr _ | .o _ adr _
  | .f _ adr _ | .x _ adr _ | .y _ adr _ | .z _ adr _ => adr

/-- The mode flag of an order (R55). -/
def mode : Instr → Mode
  | .a _ _ md | .s _ _ md | .h _ _ md | .v _ _ md | .n _ _ md | .u _ _ md | .t _ _ md
  | .c _ _ md | .r _ _ md | .l _ _ md | .e _ _ md | .g _ _ md | .i _ _ md | .o _ _ md
  | .f _ _ md | .x _ _ md | .y _ _ md | .z _ _ md => md

end Instr

end Sys2Proof
end

