-- ==== Sys2Proof/WellFormed.lean ====
section
/-! DEFINITION. Well-formed orders. The types of the fields already hold their ranges (R55, R56); what
is left is the one illegal encoding inside an order's own code: R or L with no bit set in w[11:0]
(30_encoding.md R62, R64). A long access at an odd address is NOT ill-formed: it is "not checked at
decode" (R59). -/

namespace Sys2Proof

/-- The count field w[11:0] of R and L is zero: spare bit, address and mode flag all zero (R62). -/
def emptyCountField (sp : Bool) (n : BitVec 10) (m : Mode) : Bool :=
  !sp && n == 0 && m == .short

/-- An order is well formed unless it is a shift with an empty count field (R64). -/
def Instr.wellFormed : Instr → Bool
  | .r sp adr md => !emptyCountField sp adr md
  | .l sp adr md => !emptyCountField sp adr md
  | .a .. | .s .. | .h .. | .v .. | .n .. | .u .. | .t .. | .c .. | .e .. | .g ..
  | .i .. | .o .. | .f .. | .x .. | .y .. | .z .. => true

/-- The same as a decidable proposition. -/
abbrev Instr.WellFormed (i : Instr) : Prop := i.wellFormed = true

end Sys2Proof
end

