-- ==== Sys2Proof/Decode.lean ====
section
/-! DEFINITION. Order words: the letter codes (30_encoding.md R57), the field layout (R55, R56), the
decoder (R58) and the encoder, both read off the one table of codes, the printable form (R65) and the
Loader's grammar of one order (R67, R68). -/

namespace Sys2Proof

/-! ## Letter codes (`LETTER_CODE`) -/

/-- The 5-bit code of each letter: the table of R57 (decision D2; log entry 6). -/
def letterCode : Letter → Code
  | .P => 0  | .Q => 1  | .W => 2  | .E => 3  | .R => 4  | .T => 5  | .Y => 6  | .U => 7
  | .I => 8  | .O => 9  | .J => 10 | .S => 12 | .Z => 13 | .K => 14 | .F => 17 | .D => 19
  | .H => 21 | .N => 22 | .M => 23 | .L => 25 | .X => 26 | .G => 27 | .A => 28 | .B => 29
  | .C => 30 | .V => 31

/-- Every letter of the codec. -/
def allLetters : List Letter :=
  [.A, .B, .C, .D, .E, .F, .G, .H, .I, .J, .K, .L, .M,
   .N, .O, .P, .Q, .R, .S, .T, .U, .V, .W, .X, .Y, .Z]

/-- The letter with a given code, none for the six non-letter codes of R57. -/
def letterOfCode (c : Code) : Option Letter :=
  allLetters.find? fun l => letterCode l == c

/-! ## Fields (`ORDER_LAYOUT`) -/

/-- op = w[16:12] (R56). -/
def opField (w : HalfWord) : Code := w.extractLsb' 12 5

/-- s = w[11] (R56). -/
def spareField (w : HalfWord) : Bool := w.getLsbD 11

/-- n = w[10:1] (R56). -/
def addressField (w : HalfWord) : BitVec 10 := w.extractLsb' 1 10

/-- m = w[0] (R56): 0 = short, 1 = long. -/
def modeField (w : HalfWord) : Mode := if w.getLsbD 0 then .long else .short

/-- The count field w[11:0] of the shift orders (R62). -/
def countField (w : HalfWord) : BitVec 12 := w.extractLsb' 0 12

/-- The mode flag as bit 0 of a word. -/
def Mode.bit : Mode → Bool
  | .short => false
  | .long => true

/-- The word with a given letter and fields: op, spare, address, mode from the top down (R55, R68). -/
def orderWord (l : Letter) (sp : Bool) (n : BitVec 10) (m : Mode) : HalfWord :=
  letterCode l ++ BitVec.ofBool sp ++ n ++ BitVec.ofBool m.bit

/-! ## Decoding -/

/-- Why a word is no order: its op field is one of the 14 codes that select none (R58). -/
inductive DecodeError where
  | selectsNoOrder (w : HalfWord)
  deriving DecidableEq, Repr

/-- The order a letter selects, with its fields; none for the eight letters that head no order (R58). -/
def orderOfLetter (l : Letter) (sp : Bool) (n : BitVec 10) (m : Mode) : Option Instr :=
  match l with
  | .A => some (.a sp n m) | .S => some (.s sp n m) | .H => some (.h sp n m)
  | .V => some (.v sp n m) | .N => some (.n sp n m) | .U => some (.u sp n m)
  | .T => some (.t sp n m) | .C => some (.c sp n m) | .R => some (.r sp n m)
  | .L => some (.l sp n m) | .E => some (.e sp n m) | .G => some (.g sp n m)
  | .I => some (.i sp n m) | .O => some (.o sp n m) | .F => some (.f sp n m)
  | .X => some (.x sp n m) | .Y => some (.y sp n m) | .Z => some (.z sp n m)
  | .B | .D | .J | .K | .M | .P | .Q | .W => none

/-- Decoding is total: the order is selected by `op` alone, and a word whose op selects no order is
rejected by name (R56, R58). A shift with an empty count field decodes; executing it raises (R62). -/
def decode (w : HalfWord) : Except DecodeError Instr :=
  match (letterOfCode (opField w)).bind
      fun l => orderOfLetter l (spareField w) (addressField w) (modeField w) with
  | some i => .ok i
  | none => .error (.selectsNoOrder w)

/-- The word of an order (R55, R57). -/
def encode (i : Instr) : HalfWord := orderWord i.letter i.spare i.address i.mode

/-- The decoder on the opcode table's numbering: an order is one 17-bit word, bit 0 its least
significant bit, and the bits the host's number has above the word's are 0 (log entry 13). -/
def decodeTableWord (nbits w : Nat) : Option Instr :=
  (decode (BitVec.ofNat 17 (w % 2 ^ nbits))).toOption

/-! ## Text -/

/-- The letter as printed. -/
def Letter.char : Letter → Char
  | .A => 'A' | .B => 'B' | .C => 'C' | .D => 'D' | .E => 'E' | .F => 'F' | .G => 'G'
  | .H => 'H' | .I => 'I' | .J => 'J' | .K => 'K' | .L => 'L' | .M => 'M' | .N => 'N'
  | .O => 'O' | .P => 'P' | .Q => 'Q' | .R => 'R' | .S => 'S' | .T => 'T' | .U => 'U'
  | .V => 'V' | .W => 'W' | .X => 'X' | .Y => 'Y' | .Z => 'Z'

/-- The mode character: S for short, L for long (R65, R67). -/
def Mode.char : Mode → Char
  | .short => 'S'
  | .long => 'L'

/-- One decimal digit. -/
def digitChar (d : Nat) : Char :=
  match d with
  | 0 => '0' | 1 => '1' | 2 => '2' | 3 => '3' | 4 => '4'
  | 5 => '5' | 6 => '6' | 7 => '7' | 8 => '8' | _ => '9'

/-- A number below 10^(k+1) in decimal, most significant digit first, no leading zeros (k bounds the digits). -/
def decimal : Nat → Nat → List Char
  | 0, d => [digitChar (d % 10)]
  | k + 1, d => if d < 10 then [digitChar d] else decimal k (d / 10) ++ [digitChar (d % 10)]

/-- The text of an order: letter, address in decimal, mode character (R65). -/
def orderText (l : Letter) (n : BitVec 10) (m : Mode) : List Char :=
  l.char :: decimal 3 n.toNat ++ [m.char]

/-- R65: the printable form of a word, none where its op field has no letter. -/
def printableForm (w : HalfWord) : Option (List Char) :=
  (letterOfCode (opField w)).map fun l => orderText l (addressField w) (modeField w)

/-- The letter a character of the text stands for (any letter the codec knows, R70). -/
def letterOfChar (c : Char) : Option Letter :=
  allLetters.find? fun l => l.char == c

/-- The value of a decimal digit. -/
def digitValue (c : Char) : Option Nat :=
  (List.range 10).find? fun d => digitChar d == c

/-- The digits at the front of a text, matched greedily (R67): their value added to what was read
before them, and the rest of the text. -/
def readDigits : Nat → List Char → Nat × List Char
  | v, [] => (v, [])
  | v, c :: cs =>
    match digitValue c with
    | some d => readDigits (10 * v + d) cs
    | none => (v, c :: cs)

/-- The mode a mode character stands for (R67). -/
def modeOfChar (c : Char) : Option Mode :=
  if c = 'S' then some .short else if c = 'L' then some .long else none

/-- One order at the front of a text (R67, R68): its word, spare bit 0, and the rest of the text. No
digits mean 0, and a value over 1023 is refused (decision D19). -/
def readOrder : List Char → Option (HalfWord × List Char)
  | [] => none
  | c :: cs =>
    match letterOfChar c, readDigits 0 cs with
    | some l, (v, x :: rest) =>
      match modeOfChar x with
      | some m => if v < 1024 then some (orderWord l false (BitVec.ofNat 10 v) m, rest) else none
      | none => none
    | some _, (_, []) => none
    | none, _ => none

end Sys2Proof
end

