-- ==== Sys2Proof/Config.lean ====
section
/-! DEFINITION. The parameters of the core (00_scope.md R5; 92_eei_decisions.md). The letter codes
(`LETTER_CODE`) and the order layout (`ORDER_LAYOUT`) are tables of Decode.lean, the half layout
(`HALF_LAYOUT`) is in Machine/Ops.lean; each is the spec's default. -/

namespace Sys2Proof.Config

/-- R5 `CELLS`: full-width memory cells. -/
abbrev cells : Nat := 512

/-- R5 `HALF_ADDRS`: half-width address positions, 0..1023. -/
abbrev halfAddrs : Nat := 1024

/-- R5: the Loader's base address. -/
abbrev loaderBase : Nat := 31

/-- R5: the reset instruction pointer. -/
abbrev resetIp : Nat := 0

/-- The admissible values of the parameter `F_WRITE` (92_eei_decisions.md D6). -/
inductive FWrite where
  | replace  -- the whole destination is written, every bit outside the code 0
  | merge    -- only the five bits of the code are written
  deriving DecidableEq, Repr

/-- R5 `F_WRITE`: the spec's default (R96, decision D6; log entry 8). -/
abbrev fWrite : FWrite := .replace

end Sys2Proof.Config
end

