-- ==== Sys2Proof/Machine/State.lean ====
section
/-! DEFINITION. The state of the core between two steps (10_state.md R15), as plain data, the errors of
60_exceptions.md R100, and the state after construction (R32, R120). -/

namespace Sys2Proof.Machine

/-- The five errors of R100, each with what it carries. In a step an error is the value of `State.fault`
(R77): the step ends in a next state that records it, so no step ends in `Host.Outcome.fault`. A call of
the host that is refused answers `Host.Outcome.fault` with its error and has no next state (R102, D11). -/
inductive Fault where
  /-- 1, `InvalidAddress`: raised by a memory access at an address that is out of range, not an integer,
  or odd with a long access (20_memory.md R38): by the fetch, by A S H V N C O at their read and U T I F
  at their write, and by host calls. It carries the address and the mode. The address is a rational
  because a host may name a non-integral one; a step records natural numbers only (log entry 12). Safe:
  the spec gives the stop. -/
  | invalidAddress (address : Rat) (mode : Mode)
  /-- 2, `WidthMismatch`: raised by a host write of the wrong width only (R102). It carries the expected
  and the given width. Safe: the spec gives the refusal. -/
  | widthMismatch (expected given : Nat)
  /-- 3, `TapeExhausted`: raised by I on an empty tape (R103). Safe: the spec gives the stop. -/
  | tapeExhausted
  /-- 4, `MalformedOrder`: raised at dispatch by a word that selects no order, and by R and L with an
  empty count field (R104). It carries the word and, where its op has a letter, its printable form
  (R65). Safe: the spec gives the stop. -/
  | malformedOrder (word : HalfWord) (printable : Option (List Char))
  /-- 5, `MalformedInput`: raised by the Loader, never by a step (R105). It carries the position in the
  text. Safe: the spec gives the refusal. -/
  | malformedInput (position : Nat)
  deriving DecidableEq, Repr

/-- Why an instruction is refused. -/
inductive Refusal where
  /-- An order without a meaning in this model; raised by no arm of `exec`. Safe. -/
  | notModelled (mnemonic : String)
  deriving DecidableEq, Repr

/-- The memory bank (R16): pairs of a cell number and its 35-bit value, cell numbers strictly rising and
below 512, no listed value zero. An unlisted cell reads as zero, its reset value (R32). The unit is the
cell and not the byte, because "the memory holds no bytes" (20_memory.md R46; log entry 3). -/
abbrev Memory := List (Nat × FullWord)

/-- The state of the core between two steps (R15). -/
structure State where
  /-- `M[0..511]`, the memory bank (R16). -/
  mem : Memory
  /-- `ACC`, the accumulator's canonical storage (R17). -/
  acc : AccWord
  /-- `MR`, the multiplier's canonical storage (R21). -/
  mr : FullWord
  /-- `ip`, the half-width address of the next order, 0..1024 (R25). -/
  ip : Nat
  /-- The run state (R26). -/
  running : Bool
  /-- The part of the input tape not yet consumed (R27). -/
  tape : List Code
  /-- Everything written to the output so far, oldest first (R27). -/
  out : List Code
  /-- The code most recently written to the output (R28). -/
  lastOut : Code
  /-- The record of a failed step (R31). -/
  fault : Option Fault
  deriving DecidableEq, Repr

/-- The machine as constructed, which is the machine right after reset (R32, R119, R120). The tape and the
output belong to the host and no reset writes them; they are empty here (log entry 4). -/
def State.reset : State where
  mem := []
  acc := 0
  mr := 0
  ip := Config.resetIp
  running := true
  tape := []
  out := []
  lastOut := 0
  fault := none

end Sys2Proof.Machine
end

