-- ==== Sys2Proof/Machine/Ops.lean ====
section
/-! DEFINITION. The named operations over memory, registers and the input/output channel, the answer of a
failed sub-step and the commit, and reset. -/

namespace Sys2Proof.Machine

/-! ## The memory bank as data -/

/-- `M[k]`: the value of cell k, zero when it is not listed (R16, R32). -/
def Memory.cell : Memory → Nat → FullWord
  | [], _ => 0
  | (j, v) :: rest, k => if j = k then v else Memory.cell rest k

/-- The bank with cell k unlisted. -/
def Memory.erase (mem : Memory) (k : Nat) : Memory := mem.filter fun entry => entry.1 != k

/-- The bank with cell k listed before the first greater cell number. -/
def Memory.insert : Memory → Nat → FullWord → Memory
  | [], k, v => [(k, v)]
  | (j, x) :: rest, k, v =>
    if k < j then (k, v) :: (j, x) :: rest else (j, x) :: Memory.insert rest k v

/-- `M[k] <- v`, in the canonical form: in order of cell numbers, and a cell written with zero unlisted. -/
def Memory.setCell (mem : Memory) (k : Nat) (v : FullWord) : Memory :=
  if v = 0 then mem.erase k else (mem.erase k).insert k v

/-- The canonical form from cell number `lo` on: strictly rising, below 512, no zero listed. -/
def Memory.wfFrom : Nat → Memory → Bool
  | _, [] => true
  | lo, (k, v) :: rest =>
    decide (lo ≤ k) && decide (k < Config.cells) && decide (v ≠ 0) && Memory.wfFrom (k + 1) rest

/-- The canonical form of the memory bank. -/
def Memory.wf (mem : Memory) : Bool := Memory.wfFrom 0 mem

/-! ## Half-words and full words (`HALF_LAYOUT`) -/

/-- The half-word of a cell at an address (R36): the low half at an even address, the high half at an odd one. -/
def halfOfCell (cell : FullWord) (a : Nat) : HalfWord :=
  if a % 2 = 0 then cell.extractLsb' 0 17 else cell.extractLsb' 18 17

/-- The cell with the half-word at an address replaced; the other half and bit 17 are kept (R40). -/
def setHalfOfCell (cell : FullWord) (a : Nat) (v : HalfWord) : FullWord :=
  if a % 2 = 0 then cell.extractLsb' 17 18 ++ v else v ++ cell.extractLsb' 0 18

/-- `half(a)` (R36). -/
def Memory.half (mem : Memory) (a : Nat) : HalfWord := halfOfCell (mem.cell (a / 2)) a

/-- R38: an access at address a is valid when a is below 1024 and, for a long access, even. -/
def validAccess (a : Nat) (m : Mode) : Bool :=
  decide (a < Config.halfAddrs) && (m == .short || a % 2 == 0)

/-- The value a valid access reads (R39). -/
def Memory.load (mem : Memory) (a : Nat) (m : Mode) : BitVec m.width :=
  match m with
  | .short => mem.half a
  | .long => mem.cell (a / 2)

/-- The memory after a valid access has written v (R40). -/
def Memory.store (mem : Memory) (a : Nat) (m : Mode) (v : BitVec m.width) : Memory :=
  match m, v with
  | .short, v => mem.setCell (a / 2) (setHalfOfCell (mem.cell (a / 2)) a v)
  | .long, v => mem.setCell (a / 2) v

/-- `MemRead(a, m)` (R39). A read changes no state (R44). -/
def memRead (s : State) (a : Nat) (m : Mode) : Except Fault (BitVec m.width) :=
  if validAccess a m then .ok (s.mem.load a m) else .error (.invalidAddress (a : Rat) m)

/-- `MemWrite(a, m, v)` (R40). The type of v holds the width check, which no order can fail (R41). -/
def memWrite (s : State) (a : Nat) (m : Mode) (v : BitVec m.width) : Except Fault State :=
  if validAccess a m then .ok { s with mem := s.mem.store a m v }
  else .error (.invalidAddress (a : Rat) m)

/-! ## The accumulator and the multiplier -/

/-- `AccRead(v)`: the current bits of a view (R17, R19). -/
def accRead (s : State) (v : AccView) : BitVec v.width :=
  match v with
  | .upper17 => s.acc.extractLsb' 54 17
  | .upper35 => s.acc.extractLsb' 36 35
  | .full => s.acc

/-- `AccWrite(v, x)`: the bits of the view replaced, the bits below it kept (R20). -/
def accWrite (s : State) (v : AccView) (x : BitVec v.width) : State :=
  match v, x with
  | .upper17, x => { s with acc := x ++ s.acc.extractLsb' 0 54 }
  | .upper35, x => { s with acc := x ++ s.acc.extractLsb' 0 36 }
  | .full, x => { s with acc := x }

/-- `MrRead(m)` (R21, R22). -/
def mrRead (s : State) (m : Mode) : BitVec m.width :=
  match m with
  | .short => s.mr.extractLsb' 18 17
  | .long => s.mr

/-- `MrWrite(m, x)` (R23). -/
def mrWrite (s : State) (m : Mode) (x : BitVec m.width) : State :=
  match m, x with
  | .short, x => { s with mr := x ++ s.mr.extractLsb' 0 18 }
  | .long, x => { s with mr := x }

/-! ## The input/output channel -/

/-- `TapeRead()` (R111): the first code of the tape and the state with it consumed. -/
def tapeRead (s : State) : Except Fault (Code × State) :=
  match s.tape with
  | [] => .error .tapeExhausted
  | c :: rest => .ok (c, { s with tape := rest })

/-- `OutWrite(c)` (R112). -/
def outWrite (s : State) (c : Code) : State :=
  { s with out := s.out ++ [c], lastOut := c }

/-! ## How a step ends -/

/-- A sub-step has raised (R77, R108): the error is recorded, and ip, running and every effect completed
before the raise are as they stand in s. This is all there is of taking an exception: no state is saved,
there is no handler and no mode changes (R108). The step still has a next state (log entry 1). -/
def raise (e : Fault) (s : State) : Host.Outcome State Fault Refusal :=
  .next { s with fault := some e }

/-- The malformed order word w, with its printable form (R65, R104). -/
def malformed (w : HalfWord) : Fault := .malformedOrder w (printableForm w)

/-- The commit (R75): ip takes the pending value. -/
def commit (next : Nat) (s : State) : Host.Outcome State Fault Refusal :=
  .next { s with ip := next }

/-- The commit with the default pending value ip + 1, which does not wrap (R74, R75, R76). -/
def commitNext (s : State) : Host.Outcome State Fault Refusal := commit (s.ip + 1) s

/-- A sub-step that may raise, then the rest of the order with its value (R10). -/
def orRaise {α : Type} (s : State) (r : Except Fault α)
    (rest : α → Host.Outcome State Fault Refusal) : Host.Outcome State Fault Refusal :=
  match r with
  | .ok x => rest x
  | .error e => raise e s

/-- Reset, from any state (R119): the only way out of the halted and the faulted state (R110, R117). The
tape and the output stay (decision D10). -/
def resetAction (s : State) : State := { State.reset with tape := s.tape, out := s.out }

/-- The numbers of the errors (R100, decision D20). -/
def Fault.number : Fault → Nat
  | .invalidAddress .. => 1
  | .widthMismatch .. => 2
  | .tapeExhausted => 3
  | .malformedOrder .. => 4
  | .malformedInput .. => 5

end Sys2Proof.Machine
end

