-- ==== Sys2Proof/Machine/Operands.lean ====
section
/-! DEFINITION. The operand forms: the shift count in the order word (30_encoding.md R62), the scaled
product of V and N (41_add_multiply.md R85), and where I, O and F place a code (45_io.md R94 to R96).
The address field is a memory address or a jump target unchanged (R59). -/

namespace Sys2Proof.Machine

/-- `lowestSetBit(w)` (R8): the least i with w[i] = 1, none for w = 0. -/
def lowestSetBit {k : Nat} (w : BitVec k) : Option Nat :=
  (List.range k).find? fun i => w.getLsbD i

/-- R62: the shift count of R and L, `lowestSetBit(w) + 1`; none when w[11:0] = 0, whatever the op field
holds (decision D5). -/
def shiftCount (w : HalfWord) : Option Nat :=
  if countField w = 0 then none else (lowestSetBit w).map (· + 1)

/-- R85: `sext(p) << 2` within 2k+1 bits, where p is the exact signed product in 2k bits (decision D4). -/
def scaledProduct {k : Nat} (x r : BitVec k) : BitVec (2 * k + 1) :=
  (BitVec.ofInt (2 * k) (x.toInt * r.toInt)).signExtend (2 * k + 1) <<< 2

/-- The scaled product at the width of view m+1: 2·17+1 = 35, 2·35+1 = 71 (R85). -/
def productFor (m : Mode) (x r : BitVec m.width) : BitVec m.productView.width :=
  match m, x, r with
  | .short, x, r => scaledProduct (k := 17) x r
  | .long, x, r => scaledProduct (k := 35) x r

/-- R94: the word I stores: the code in bits 4..0 of a half-word, or in bits 22..18 of a cell. -/
def inputWord (m : Mode) (c : Code) : BitVec m.width :=
  match m with
  | .short => c.setWidth 17
  | .long => c.setWidth 35 <<< 18

/-- R95: the code O prints: bits 16..12 of a half-word, or bits 34..30 of a cell. -/
def outputCode (m : Mode) (x : BitVec m.width) : Code :=
  match m, x with
  | .short, x => x.extractLsb' 12 5
  | .long, x => x.extractLsb' 30 5

/-- R96: the word F stores when the whole destination is replaced: the code in bits 16..12 of a half-word,
or in bits 34..30 of a cell, zeros elsewhere. -/
def reinjectWord (m : Mode) (c : Code) : BitVec m.width :=
  match m with
  | .short => c.setWidth 17 <<< 12
  | .long => c.setWidth 35 <<< 30

/-- R96 under `F_WRITE = merge`: the five bits written into the old word, the others kept (decision D6). -/
def mergeWord (m : Mode) (c : Code) (old : BitVec m.width) : BitVec m.width :=
  match m, old with
  | .short, old => c ++ old.extractLsb' 0 12
  | .long, old => c ++ old.extractLsb' 0 30

/-- R96: what F writes over an old word, for either value of `F_WRITE`. -/
def reinject (fw : Config.FWrite) (m : Mode) (c : Code) (old : BitVec m.width) : BitVec m.width :=
  match fw with
  | .replace => reinjectWord m c
  | .merge => mergeWord m c old

end Sys2Proof.Machine
end

