-- ==== Sys2Proof/Machine/AddMultiply.lean ====
section
/-! DEFINITION. The orders A, S, H, V and N (41_add_multiply.md). -/

namespace Sys2Proof.Machine

/-- R82, `A n m`: `AccWrite(m, AccRead(m) + MemRead(n, m))`. -/
def execA (_sp : Bool) (n : BitVec 10) (m : Mode) (s : State) : Host.Outcome State Fault Refusal :=
  orRaise s (memRead s n.toNat m) fun x =>
    commitNext (accWrite s m.accView (accRead s m.accView + x))

/-- R83, `S n m`: `AccWrite(m, AccRead(m) - MemRead(n, m))`. -/
def execS (_sp : Bool) (n : BitVec 10) (m : Mode) (s : State) : Host.Outcome State Fault Refusal :=
  orRaise s (memRead s n.toNat m) fun x =>
    commitNext (accWrite s m.accView (accRead s m.accView - x))

/-- R84, `H n m`: `MrWrite(m, MemRead(n, m))`. -/
def execH (_sp : Bool) (n : BitVec 10) (m : Mode) (s : State) : Host.Outcome State Fault Refusal :=
  orRaise s (memRead s n.toNat m) fun x => commitNext (mrWrite s m x)

/-- R85, `V n m`: the scaled product added to view m+1. -/
def execV (_sp : Bool) (n : BitVec 10) (m : Mode) (s : State) : Host.Outcome State Fault Refusal :=
  orRaise s (memRead s n.toNat m) fun x =>
    commitNext (accWrite s m.productView (accRead s m.productView + productFor m x (mrRead s m)))

/-- R86, `N n m`: the scaled product subtracted from view m+1. -/
def execN (_sp : Bool) (n : BitVec 10) (m : Mode) (s : State) : Host.Outcome State Fault Refusal :=
  orRaise s (memRead s n.toNat m) fun x =>
    commitNext (accWrite s m.productView (accRead s m.productView - productFor m x (mrRead s m)))

end Sys2Proof.Machine
end

