-- ==== Sys2Proof/Machine/CollateShift.lean ====
section
/-! DEFINITION. The orders C, R and L (43_collate_shift.md). -/

namespace Sys2Proof.Machine

/-- R89, `C n m`: `AccWrite(m, AccRead(m) + (MemRead(n, m) AND MrRead(m)))`. -/
def execC (_sp : Bool) (n : BitVec 10) (m : Mode) (s : State) : Host.Outcome State Fault Refusal :=
  orRaise s (memRead s n.toNat m) fun x =>
    commitNext (accWrite s m.accView (accRead s m.accView + (x &&& mrRead s m)))

/-- The count of a shift order, or the error of an empty count field (R62). -/
def countOrMalformed (w : HalfWord) : Except Fault Nat :=
  match shiftCount w with
  | some k => .ok k
  | none => .error (malformed w)

/-- R90, `R`: the whole accumulator shifted right arithmetically, whatever the mode flag. -/
def execR (sp : Bool) (n : BitVec 10) (m : Mode) (s : State) : Host.Outcome State Fault Refusal :=
  orRaise s (countOrMalformed (orderWord .R sp n m)) fun k =>
    commitNext (accWrite s .full ((accRead s .full).sshiftRight k))

/-- R91, `L`: the whole accumulator shifted left, zeros entering at bit 0. -/
def execL (sp : Bool) (n : BitVec 10) (m : Mode) (s : State) : Host.Outcome State Fault Refusal :=
  orRaise s (countOrMalformed (orderWord .L sp n m)) fun k =>
    commitNext (accWrite s .full (accRead s .full <<< k))

end Sys2Proof.Machine
end

