-- ==== Sys2Proof/Machine/Flags.lean ====
section
/-! DEFINITION. The machine has no flags (10_state.md R29). The one condition any order tests is the sign
bit of the full accumulator, read by E and G. -/

namespace Sys2Proof.Machine

/-- ACC[70] = 1: the accumulator is negative (R29, R92, R93). -/
def accNegative (s : State) : Bool := s.acc.getLsbD 70

end Sys2Proof.Machine
end

