-- ==== Sys2Proof/Machine/Control.lean ====
section
/-! DEFINITION. The conditional jumps E and G (44_control.md). -/

namespace Sys2Proof.Machine

/-- R92, `E n`: the pending ip becomes n when ACC[70] = 0. -/
def execE (_sp : Bool) (n : BitVec 10) (_m : Mode) (s : State) : Host.Outcome State Fault Refusal :=
  if accNegative s then commitNext s else commit n.toNat s

/-- R93, `G n`: the pending ip becomes n when ACC[70] = 1. -/
def execG (_sp : Bool) (n : BitVec 10) (_m : Mode) (s : State) : Host.Outcome State Fault Refusal :=
  if accNegative s then commit n.toNat s else commitNext s

end Sys2Proof.Machine
end

