-- ==== Sys2Proof/Machine/InputOutput.lean ====
section
/-! DEFINITION. The orders I, O and F, which reach the input/output channel (45_io.md). -/

namespace Sys2Proof.Machine

/-- R94, `I n m`: a code is consumed, then written; a write that fails keeps the loss of the code. -/
def execI (_sp : Bool) (n : BitVec 10) (m : Mode) (s : State) : Host.Outcome State Fault Refusal :=
  orRaise s (tapeRead s) fun cs =>
    orRaise cs.2 (memWrite cs.2 n.toNat m (inputWord m cs.1)) fun s' => commitNext s'

/-- R95, `O n m`: the top five bits of the operand are written to the output. -/
def execO (_sp : Bool) (n : BitVec 10) (m : Mode) (s : State) : Host.Outcome State Fault Refusal :=
  orRaise s (memRead s n.toNat m) fun x => commitNext (outWrite s (outputCode m x))

/-- R96, `F n m`: the last output code is written at the top five bits. The old word is read for the
parameter value `merge` only; a read changes nothing and fails exactly as the write does (R38, R44). -/
def execF (_sp : Bool) (n : BitVec 10) (m : Mode) (s : State) : Host.Outcome State Fault Refusal :=
  orRaise s (memRead s n.toNat m) fun old =>
    orRaise s (memWrite s n.toNat m (reinject Config.fWrite m s.lastOut old)) fun s' => commitNext s'

end Sys2Proof.Machine
end

