-- ==== Sys2Proof/Machine/Misc.lean ====
section
/-! DEFINITION. The orders X, Y and Z (46_misc.md). -/

namespace Sys2Proof.Machine

/-- R97, `X`: no operation. -/
def execX (_sp : Bool) (_n : BitVec 10) (_m : Mode) (s : State) : Host.Outcome State Fault Refusal :=
  commitNext s

/-- R98, `Y`: `ACC <- ACC + 2^35`, modulo 2^71. -/
def execY (_sp : Bool) (_n : BitVec 10) (_m : Mode) (s : State) : Host.Outcome State Fault Refusal :=
  commitNext (accWrite s .full (accRead s .full + BitVec.twoPow 71 35))

/-- R99, `Z`: `running <- false`; the step commits ip + 1 as usual (R78). -/
def execZ (_sp : Bool) (_n : BitVec 10) (_m : Mode) (s : State) : Host.Outcome State Fault Refusal :=
  commitNext { s with running := false }

end Sys2Proof.Machine
end

