-- ==== Sys2Proof/Machine/Store.lean ====
section
/-! DEFINITION. The orders U and T (42_store.md). -/

namespace Sys2Proof.Machine

/-- R87, `U n m`: `MemWrite(n, m, AccRead(m))`. -/
def execU (_sp : Bool) (n : BitVec 10) (m : Mode) (s : State) : Host.Outcome State Fault Refusal :=
  orRaise s (memWrite s n.toNat m (accRead s m.accView)) fun s' => commitNext s'

/-- R88, `T n m`: as U, then all 71 bits of the accumulator cleared. -/
def execT (_sp : Bool) (n : BitVec 10) (m : Mode) (s : State) : Host.Outcome State Fault Refusal :=
  orRaise s (memWrite s n.toNat m (accRead s m.accView)) fun s' =>
    commitNext (accWrite s' .full 0)

end Sys2Proof.Machine
end

