-- ==== Sys2Proof/Machine/Dispatch.lean ====
section
/-! DEFINITION. The dispatch on the order (40_cycle.md R74, sub-step 4, and R75): each arm runs the order's
rule and commits the instruction pointer, or records the error the rule raised. -/

namespace Sys2Proof.Machine

def exec (i : Instr) (s : State) : Host.Outcome State Fault Refusal :=
  match i with
  | .a sp n m => Sys2Proof.Machine.execA sp n m s
  | .s sp n m => Sys2Proof.Machine.execS sp n m s
  | .h sp n m => Sys2Proof.Machine.execH sp n m s
  | .v sp n m => Sys2Proof.Machine.execV sp n m s
  | .n sp n m => Sys2Proof.Machine.execN sp n m s
  | .u sp n m => Sys2Proof.Machine.execU sp n m s
  | .t sp n m => Sys2Proof.Machine.execT sp n m s
  | .c sp n m => Sys2Proof.Machine.execC sp n m s
  | .r sp n m => Sys2Proof.Machine.execR sp n m s
  | .l sp n m => Sys2Proof.Machine.execL sp n m s
  | .e sp n m => Sys2Proof.Machine.execE sp n m s
  | .g sp n m => Sys2Proof.Machine.execG sp n m s
  | .i sp n m => Sys2Proof.Machine.execI sp n m s
  | .o sp n m => Sys2Proof.Machine.execO sp n m s
  | .f sp n m => Sys2Proof.Machine.execF sp n m s
  | .x sp n m => Sys2Proof.Machine.execX sp n m s
  | .y sp n m => Sys2Proof.Machine.execY sp n m s
  | .z sp n m => Sys2Proof.Machine.execZ sp n m s

end Sys2Proof.Machine
end

