-- ==== Sys2Proof/Machine/Fetch.lean ====
section
/-! DEFINITION. The fetch and decode of one step (40_cycle.md R73, R74), which Step.lean calls, and the
placing of a word where the next step fetches. -/

namespace Sys2Proof.Machine

/-- R73: a step is enabled exactly when the core is running and no fault is recorded. -/
def enabled (s : State) : Bool := s.running && s.fault.isNone

/-- R74 sub-steps 1 and 2, and the first line of sub-step 4: the half-word at ip, decoded; an address of
1024 or more raises `InvalidAddress` (R76), and a word that selects no order `MalformedOrder` (R58). -/
def fetchOrder (s : State) : Except Fault Instr :=
  match memRead s s.ip .short with
  | .error e => .error e
  | .ok w =>
    match decode w with
    | .ok i => .ok i
    | .error (.selectsNoOrder w') => .error (malformed w')

/-- The state with a 17-bit word stored at its ip and the core able to step: ip is kept when it is an
address (else 0), running is set and the fault record is empty (log entry 14). -/
def placeWord (s : State) (w : HalfWord) : State :=
  let ip := if s.ip < Config.halfAddrs then s.ip else Config.resetIp
  { s with mem := s.mem.store ip .short w, ip := ip, running := true, fault := none }

end Sys2Proof.Machine
end

