-- ==== Sys2Proof/Machine/Step.lean ====
section
/-! DEFINITION. One step of the engine (40_cycle.md R73 to R81). -/

namespace Sys2Proof.Machine

/-- One requested step. A core that is halted or faulted has no step: nothing changes (R73, R78; log entry 2).
An enabled core fetches and decodes one order and runs it (R74); an error of the fetch or of the dispatch
is recorded as R77 says. -/
def step (s : State) : Host.Outcome State Fault Refusal :=
  if enabled s then orRaise s (fetchOrder s) fun i => exec i s else .next s

/-- The state with the table's word w placed where the next step fetches (log entry 14). -/
def State.withFetchWord (s : State) (nbits w : Nat) : State :=
  placeWord s (BitVec.ofNat 17 (w % 2 ^ nbits))

end Sys2Proof.Machine
end

