-- ==== Sys2Proof/Machine/HostCalls.lean ====
section
/-! DEFINITION. The calls of the host beside the step (60_exceptions.md R118): reads and writes of memory and
registers with their checks (20_memory.md R38 to R41; 10_state.md R20, R23), supplying the tape and setting
ip. A refused call answers `fault` with its error and has no next state: nothing changes (R102, decision
D11). None of these is a step, and no order reaches them (log entry 10). Reset is `resetAction`. -/

namespace Sys2Proof.Machine

/-- R38 for an address the host names, which may be negative or not an integer. -/
def hostValid (a : Rat) (m : Mode) : Bool :=
  a.den == 1 && decide (0 ≤ a.num) && validAccess a.num.toNat m

/-- `MemRead` as the host calls it (R39). -/
def hostMemRead (a : Rat) (m : Mode) (s : State) : Except Fault (BitVec m.width) :=
  if hostValid a m then .ok (s.mem.load a.num.toNat m) else .error (.invalidAddress a m)

/-- `MemWrite` as the host calls it, with a value of any width: the address is checked first, the width
second (R40). -/
def hostMemWrite (a : Rat) (m : Mode) {k : Nat} (v : BitVec k) (s : State) :
    Host.Outcome State Fault Refusal :=
  if hostValid a m then
    if h : k = m.width then .next { s with mem := s.mem.store a.num.toNat m (v.cast h) }
    else .fault (.widthMismatch m.width k)
  else .fault (.invalidAddress a m)

/-- `AccWrite` as the host calls it (R20). -/
def hostAccWrite (view : AccView) {k : Nat} (v : BitVec k) (s : State) :
    Host.Outcome State Fault Refusal :=
  if h : k = view.width then .next (accWrite s view (v.cast h))
  else .fault (.widthMismatch view.width k)

/-- `MrWrite` as the host calls it (R23). -/
def hostMrWrite (m : Mode) {k : Nat} (v : BitVec k) (s : State) : Host.Outcome State Fault Refusal :=
  if h : k = m.width then .next (mrWrite s m (v.cast h)) else .fault (.widthMismatch m.width k)

/-- The host supplies the input tape before the first step (R118, R123). -/
def supplyTape (codes : List Code) (s : State) : State := { s with tape := codes }

/-- The host sets ip before the first step (R118, R123). -/
def setIp (a : Nat) (s : State) : State := { s with ip := a }

end Sys2Proof.Machine
end

