-- ==== Sys2Proof/Machine/Loader.lean ====
section
/-! DEFINITION. The Loader (70_reset_and_hazards.md R122): a host action that parses a text of orders by the
grammar of Decode.lean (30_encoding.md R67, R68), writes each word as it is matched at 31, 32, …, and sets
ip = 31 when the whole text is matched. It is no step of the machine (00_scope.md R4). -/

namespace Sys2Proof.Machine

/-- What a load leaves: the state, and the error if it failed. A failed load keeps the orders written before
the failure and does not set ip (decision D19). -/
structure LoadResult where
  state : State
  error : Option Fault
  deriving DecidableEq, Repr

/-- Words written at consecutive half-width addresses with `MemWrite(a + i, 0, word_i)` (R122): the state, and
the error of the first write that fails. -/
def placeOrders : List HalfWord → Nat → State → State × Option Fault
  | [], _, s => (s, none)
  | w :: ws, a, s =>
    match memWrite s a .short w with
    | .ok s' => placeOrders ws (a + 1) s'
    | .error e => (s, some e)

/-- The words of the orders matched at the front of a text, and the part of the text no order matches (at
most `fuel` orders; a text of k characters holds fewer than k). -/
def readOrders : Nat → List Char → List HalfWord × List Char
  | 0, text => ([], text)
  | fuel + 1, text =>
    match readOrder text with
    | some (w, rest) => let more := readOrders fuel rest; (w :: more.1, more.2)
    | none => ([], text)

/-- Loading a text (R122). `MalformedInput` carries the number of characters matched before the failure (log
entry 11). A write past address 1023 fails with `InvalidAddress` before any later text is looked at. -/
def load (text : List Char) (s : State) : LoadResult :=
  let parsed := readOrders text.length text
  match placeOrders parsed.1 Config.loaderBase s with
  | (s', some e) => ⟨s', some e⟩
  | (s', none) =>
    if parsed.2 = [] then ⟨{ s' with ip := Config.loaderBase }, none⟩
    else ⟨s', some (.malformedInput (text.length - parsed.2.length))⟩

end Sys2Proof.Machine
end

