-- ==== Sys2Proof/Safety.lean ====
section
/-! DEFINITION. What claims about runs are stated in: the order a state is about to run, the two terminal
states (40_cycle.md R73; 70_reset_and_hazards.md R127), and the invariant every step keeps. -/

namespace Sys2Proof.Machine

/-- The order an enabled state runs next, none when the core is stuck or the fetch or dispatch raises. -/
def currentOrder (s : State) : Option Instr :=
  if enabled s then (fetchOrder s).toOption else none

/-- k requested steps (R79), stopping only if one had no next state. -/
def runSteps : Nat → State → Host.Outcome State Fault Refusal
  | 0, s => .next s
  | k + 1, s =>
    match step s with
    | .next t => runSteps k t
    | .fault r => .fault r
    | .refused r => .refused r

/-- Halted (R127): the program's normal end, the only successful one. -/
def Halted (s : State) : Prop := s.running = false ∧ s.fault = none

/-- Faulted (R127): an error is recorded. -/
def Faulted (s : State) : Prop := s.fault ≠ none

/-- The orders that reach memory beyond the fetch (20_memory.md R49). -/
def accessesMemory : Instr → Bool
  | .a .. | .s .. | .h .. | .v .. | .n .. | .c .. | .u .. | .t .. | .i .. | .o .. | .f .. => true
  | .r .. | .l .. | .e .. | .g .. | .x .. | .y .. | .z .. => false

/-- The shift orders. -/
def isShift : Instr → Bool
  | .r .. | .l .. => true
  | .a .. | .s .. | .h .. | .v .. | .n .. | .c .. | .u .. | .t .. | .i .. | .o .. | .f ..
  | .e .. | .g .. | .x .. | .y .. | .z .. => false

/-- What a recorded error says of the state it is recorded in. A failed step leaves memory and ip as they
were (R77, R109), so the word at ip is still the failing order: the fetch at 1024, a long access at an odd
address (R101), I on an empty tape (R103), or a malformed word (R104). The two errors of the host's calls
are never recorded (R102, R105). -/
def FaultExplained (s : State) : Prop :=
  match s.fault with
  | none => True
  | some (.invalidAddress a m) =>
    (s.ip = 1024 ∧ a = 1024 ∧ m = .short) ∨
    (s.ip < 1024 ∧ m = .long ∧ ∃ i, decode (s.mem.half s.ip) = .ok i ∧ accessesMemory i = true ∧
      i.mode = .long ∧ i.address.toNat % 2 = 1 ∧ a = (i.address.toNat : Rat))
  | some .tapeExhausted =>
    s.ip < 1024 ∧ s.tape = [] ∧ ∃ sp n m, decode (s.mem.half s.ip) = .ok (.i sp n m)
  | some (.malformedOrder w p) =>
    s.ip < 1024 ∧ w = s.mem.half s.ip ∧ p = printableForm w ∧
      (decode w = .error (.selectsNoOrder w) ∨
        ∃ i, decode w = .ok i ∧ isShift i = true ∧ countField w = 0)
  | some (.widthMismatch _ _) => False
  | some (.malformedInput _) => False

/-- What a cleared run state says: no error is recorded, and the order before ip is a Z (R78, R99, R127). -/
def HaltExplained (s : State) : Prop :=
  s.running = false → s.fault = none ∧ 1 ≤ s.ip ∧
    ∃ sp n m, decode (s.mem.half (s.ip - 1)) = .ok (.z sp n m)

/-- The invariant: memory in its canonical form, ip in 0..1024 (R25), and both terminal states explained by
the order that led to them. -/
structure StateInv (s : State) : Prop where
  mem_wf : s.mem.wf = true
  ip_le : s.ip ≤ 1024
  fault : FaultExplained s
  halt : HaltExplained s

end Sys2Proof.Machine
end

