-- ==== Sys2Proof/Certificates/Slice0/Obligations.lean ====
section
/-! DEFINITION. The statements for the provers. Each docstring names the rules of spec/ it formalises and the
decisions of the spec (92_eei_decisions.md) or log entries it rests on. -/

open Sys2Proof Sys2Proof.Machine

namespace Sys2Proof.Claims

/-- The memory operand of an order is reachable: a short access, or a long one at an even address (R38, R47;
the address field is always below 1024). -/
def Reachable (n : BitVec 10) (m : Mode) : Prop := m = .short ∨ n.toNat % 2 = 0

/-- Bit j of cell k is one an access at address a with mode m names (20_memory.md R36, R37; decision D3). -/
def Names (a : Nat) (m : Mode) (k j : Nat) : Prop :=
  k = a / 2 ∧ match m with
    | .long => j < 35
    | .short => if a % 2 = 0 then j < 17 else 18 ≤ j ∧ j < 35

/-- Every bit of memory that an access at a with mode m does not name reads the same in both memories. -/
def SameOutside (a : Nat) (m : Mode) (before after : Memory) : Prop :=
  ∀ k j, ¬ Names a m k j → (after.cell k).getLsbD j = (before.cell k).getLsbD j

/-- The state of a step that failed with e and changed nothing else (40_cycle.md R77). -/
def failed (e : Fault) (s : State) : State := { s with fault := some e }

/-- i is the position of the lowest set bit of w (R8). -/
def LowestSet (w : HalfWord) (i : Nat) : Prop :=
  w.getLsbD i = true ∧ ∀ j, j < i → w.getLsbD j = false

/-- The 14 codes that select no order (30_encoding.md R58). -/
def noOrderCodes : List Nat := [0, 1, 2, 10, 11, 14, 15, 16, 18, 19, 20, 23, 24, 29]

end Sys2Proof.Claims

open Sys2Proof.Claims

/-! ## Reset -/

/-- 70_reset_and_hazards.md R119, 10_state.md R32: what reset leaves, from any state. That the tape and the
output stay is the spec's decision D10. -/
def Obligations.ResetEstablishesResetValues : Prop :=
  ∀ s : State,
    (∀ k, (resetAction s).mem.cell k = 0) ∧ (resetAction s).acc = 0 ∧ (resetAction s).mr = 0 ∧
    (resetAction s).ip = 0 ∧ (resetAction s).running = true ∧ (resetAction s).lastOut = 0 ∧
    (resetAction s).fault = none ∧ (resetAction s).tape = s.tape ∧ (resetAction s).out = s.out ∧
    enabled (resetAction s) = true ∧ State.reset = resetAction State.reset

/-- The invariant holds after construction and after every reset. -/
def Obligations.ResetSatisfiesInvariant : Prop :=
  StateInv State.reset ∧ ∀ s : State, StateInv (resetAction s)

/-- 70_reset_and_hazards.md R121: from reset with nothing loaded the first step fails with
`MalformedOrder(0)` and ip stays 0; P is the letter of code 0 (decisions D2, D17). -/
def Obligations.EmptyMemoryFaultsAtOnce : Prop :=
  ∀ s : State, step (resetAction s) =
    .next (failed (.malformedOrder 0 (some ['P', '0', 'S'])) (resetAction s))

/-! ## The cycle -/

/-- 40_cycle.md R74: an enabled step fetches the half-word at ip, decodes it, and runs the order it selects;
the fetch and the dispatch may raise. The commit of ip is inside `exec` (CommitIsTheOnlyWriteOfIp). -/
def Obligations.StepRunsDecodedOrder : Prop :=
  ∀ s : State, enabled s = true →
    (1024 ≤ s.ip → step s = .next (failed (.invalidAddress (s.ip : Rat) .short) s)) ∧
    (s.ip < 1024 → ∀ i, decode (s.mem.half s.ip) = .ok i → step s = exec i s) ∧
    (s.ip < 1024 → ∀ e, decode (s.mem.half s.ip) = .error e →
      step s = .next (failed (.malformedOrder (s.mem.half s.ip) (printableForm (s.mem.half s.ip))) s))

/-- 40_cycle.md R73, R78; 60_exceptions.md R110, R117 (decisions D8, D9; log entry 2 for the model's answer):
however many steps are requested of a halted or faulted core, nothing changes. -/
def Obligations.StuckCoreNeverChanges : Prop :=
  ∀ s : State, s.running = false ∨ s.fault ≠ none → ∀ k, runSteps k s = .next s

/-- 40_cycle.md R75: the commit. A step that raises nothing leaves ip + 1, or the address field of a taken E
or G; a step that raises leaves ip. -/
def Obligations.CommitIsTheOnlyWriteOfIp : Prop :=
  ∀ s t : State, enabled s = true → step s = .next t →
    (t.fault ≠ none → t.ip = s.ip) ∧
    (t.fault = none → ∃ i, currentOrder s = some i ∧
      t.ip = match i with
        | .e _ n _ => if s.acc.toInt < 0 then s.ip + 1 else n.toNat
        | .g _ n _ => if s.acc.toInt < 0 then n.toNat else s.ip + 1
        | _ => s.ip + 1)

/-- 40_cycle.md R76 (decision D16): the advance from 1023 gives 1024, and the fetch there fails. -/
def Obligations.AdvanceDoesNotWrap : Prop :=
  ∀ (s : State) sp n m, enabled s = true → s.ip = 1023 → decode (s.mem.half 1023) = .ok (.x sp n m) →
    step s = .next { s with ip := 1024 } ∧
    step { s with ip := 1024 } =
      .next { s with ip := 1024, fault := some (.invalidAddress 1024 .short) }

/-- Every step keeps the invariant: the memory's canonical form, ip in 0..1024 (10_state.md R25), every
recorded error explained by the order at ip (60_exceptions.md R101 to R105, R109), a halt by the Z before
ip (46_misc.md R99). -/
def Obligations.StepKeepsInvariant : Prop :=
  ∀ s t : State, StateInv s → step s = .next t → StateInv t

/-! ## Encoding -/

/-- 30_encoding.md R55 to R58: decoding the word of an order gives the order back, for all eighteen orders
and every value of their fields, the illegal shifts included. -/
def Obligations.DecodeOfEncode : Prop :=
  ∀ i : Instr, decode (encode i) = .ok i

/-- 30_encoding.md R55, R56: a word that decodes is the word of the order it decodes to, so no two words
decode to one order and no bit of a word is dropped. -/
def Obligations.EncodeOfDecode : Prop :=
  ∀ (w : HalfWord) (i : Instr), decode w = .ok i → encode i = w

/-- 30_encoding.md R58 (decision D2): a word is rejected exactly when bits 16..12 hold one of the 14 codes
that select no order. -/
def Obligations.RejectedExactlyOnNoOrderCodes : Prop :=
  ∀ w : HalfWord, decode w = .error (.selectsNoOrder w) ↔ w.toNat / 2 ^ 12 ∈ noOrderCodes

/-- 30_encoding.md R61 (decision D7): bit 11 of the word has no effect on any order but R and L. -/
def Obligations.SpareBitIgnored : Prop :=
  ∀ (w : HalfWord) (i : Instr), decode w = .ok i → isShift i = false →
    ∃ j, decode (w ^^^ 0x00800#17) = .ok j ∧ j.letter = i.letter ∧ j.address = i.address ∧
      j.mode = i.mode ∧ ∀ s : State, exec j s = exec i s

/-- 30_encoding.md R72: the example encodings of the spec. -/
def Obligations.ExampleWordsDecode : Prop :=
  decode 0x1C00A = .ok (.a false 5 .short) ∧ decode 0x05000 = .ok (.t false 0 .short) ∧
  decode 0x0D000 = .ok (.z false 0 .short) ∧ decode 0x1C051 = .ok (.a false 40 .long) ∧
  decode 0x0303E = .ok (.e false 31 .short) ∧ decode 0x04001 = .ok (.r false 0 .long) ∧
  decode 0x19400 = .ok (.l false 512 .short)

/-! ## Memory -/

/-- 20_memory.md R42: write then read at one valid address and mode returns the value written. -/
def Obligations.ReadAfterWriteReturnsValue : Prop :=
  ∀ (s : State) (a : Nat) (m : Mode) (v : BitVec m.width), validAccess a m = true →
    ∃ t, memWrite s a m v = .ok t ∧ memRead t a m = .ok v

/-- 20_memory.md R38, R39, R40 (decision D3 through `Names`): an access is valid exactly when its address is
below 1024 and, if long, even; an invalid one raises `InvalidAddress`; a write changes only the bits its
access names, and nothing but memory. -/
def Obligations.WriteChangesOnlyNamedBits : Prop :=
  ∀ (s : State) (a : Nat) (m : Mode) (v : BitVec m.width),
    (a < 1024 ∧ (m = .short ∨ a % 2 = 0) →
      memRead s a m = .ok (s.mem.load a m) ∧
      ∃ t, memWrite s a m v = .ok t ∧ SameOutside a m s.mem t.mem ∧ t = { s with mem := t.mem }) ∧
    (¬ (a < 1024 ∧ (m = .short ∨ a % 2 = 0)) →
      memRead s a m = .error (.invalidAddress (a : Rat) m) ∧
      memWrite s a m v = .error (.invalidAddress (a : Rat) m))

/-- 20_memory.md R36, R43, R46 (decision D3): the full word of a cell is its odd half, bit 17 and its even
half, and each half reads the bits a full-word write put there. -/
def Obligations.HalvesAliasTheFullWord : Prop :=
  ∀ (mem : Memory) (k : Nat) (v : FullWord), k < 512 →
    (mem.load (2 * k) .long).toNat =
      (mem.load (2 * k + 1) .short).toNat * 2 ^ 18 + ((mem.cell k).getLsbD 17).toNat * 2 ^ 17 +
        (mem.load (2 * k) .short).toNat ∧
    ((mem.store (2 * k) .long v).load (2 * k) .short).toNat = v.toNat % 2 ^ 17 ∧
    ((mem.store (2 * k) .long v).load (2 * k + 1) .short).toNat = v.toNat / 2 ^ 18

/-- 20_memory.md R44: a write that stores the value already held leaves the state unchanged. The canonical
form makes "unchanged" equality of data. -/
def Obligations.StoringTheHeldValueChangesNothing : Prop :=
  ∀ (s : State) (a : Nat) (m : Mode) (v : BitVec m.width), s.mem.wf = true →
    memRead s a m = .ok v → memWrite s a m v = .ok s

/-! ## Registers -/

/-- 10_state.md R18: the views share the accumulator's bits. A write through view 2 is seen by views 0 and 1;
a write through view 0 or 1 changes only that view's bits, and is seen by the others. -/
def Obligations.AccumulatorViewsShareBits : Prop :=
  ∀ (s : State),
    (∀ (v : AccView) (x : BitVec v.width),
      accRead (accWrite s v x) v = x ∧ accWrite s v x = { s with acc := (accWrite s v x).acc }) ∧
    (∀ x : AccWord, (accRead (accWrite s .full x) .upper35).toNat = x.toNat / 2 ^ 36 ∧
      (accRead (accWrite s .full x) .upper17).toNat = x.toNat / 2 ^ 54) ∧
    (∀ x : FullWord, (accRead (accWrite s .upper35 x) .upper17).toNat = x.toNat / 2 ^ 18 ∧
      (accRead (accWrite s .upper35 x) .full).toNat = x.toNat * 2 ^ 36 + s.acc.toNat % 2 ^ 36) ∧
    (∀ x : HalfWord, (accRead (accWrite s .upper17 x) .full).toNat =
      x.toNat * 2 ^ 54 + s.acc.toNat % 2 ^ 54)

/-- 10_state.md R22: `MrRead(m)` returns MR[34:18] for m = 0 and MR[34:0] for m = 1. -/
def Obligations.MultiplierReadReturnsItsView : Prop :=
  ∀ s : State, (mrRead s .short).toNat = s.mr.toNat / 2 ^ 18 ∧
    (mrRead s .short).toNat < 2 ^ 17 ∧ mrRead s .long = s.mr

/-! ## The orders

Each statement gives the order's encoding (its match under the mask 0x1F000; decisions D1, D2), where it
completes with its own effect and what it leaves unchanged (`t = { s with … }` names every field that may
differ), and where it raises. Two clauses rest on decisions: the encoding is decisions D1 and D2
(log entries 5 and 6, PRESUMED), and the record of a raise is decision D8 (log entry 1, DEDUCED). -/

/-- 41_add_multiply.md R82: A. The sum modulo 2^WA(m); the bits below the view kept; the same as adding x
shifted to the view's position to the whole accumulator. -/
def Obligations.AddOrder : Prop :=
  ∀ sp n m (s : State),
    encode (.a sp n m) &&& 0x1F000#17 = 0x1C000#17 ∧
    (Reachable n m → ∃ t, exec (.a sp n m) s = .next t ∧
      (accRead t m.accView).toNat =
        ((accRead s m.accView).toNat + (s.mem.load n.toNat m).toNat) % 2 ^ m.width ∧
      t.acc.toNat % 2 ^ (71 - m.width) = s.acc.toNat % 2 ^ (71 - m.width) ∧
      t.acc.toNat =
        (s.acc.toNat + (s.mem.load n.toNat m).toNat * 2 ^ (71 - m.width)) % 2 ^ 71 ∧
      t = { s with acc := t.acc, ip := s.ip + 1 }) ∧
    (¬ Reachable n m →
      exec (.a sp n m) s = .next (failed (.invalidAddress (n.toNat : Rat) .long) s))

/-- 41_add_multiply.md R83: S. The difference modulo 2^WA(m); the bits below the view kept. Encoding: R58,
decisions D1, D2 (log entries 5, 6); the recorded error: decision D8 (log entry 1). -/
def Obligations.SubtractOrder : Prop :=
  ∀ sp n m (s : State),
    encode (.s sp n m) &&& 0x1F000#17 = 0x0C000#17 ∧
    (Reachable n m → ∃ t, exec (.s sp n m) s = .next t ∧
      (accRead t m.accView).toInt =
        ((accRead s m.accView).toInt - (s.mem.load n.toNat m).toInt).bmod (2 ^ m.width) ∧
      t.acc.toNat % 2 ^ (71 - m.width) = s.acc.toNat % 2 ^ (71 - m.width) ∧
      t = { s with acc := t.acc, ip := s.ip + 1 }) ∧
    (¬ Reachable n m →
      exec (.s sp n m) s = .next (failed (.invalidAddress (n.toNat : Rat) .long) s))

/-- 41_add_multiply.md R84: H. View m of the multiplier replaced, its low 18 bits kept when m = 0, the
accumulator untouched. -/
def Obligations.LoadMultiplierOrder : Prop :=
  ∀ sp n m (s : State),
    encode (.h sp n m) &&& 0x1F000#17 = 0x15000#17 ∧
    (Reachable n m → ∃ t, exec (.h sp n m) s = .next t ∧
      mrRead t m = s.mem.load n.toNat m ∧
      t.mr.toNat % 2 ^ (35 - m.width) = s.mr.toNat % 2 ^ (35 - m.width) ∧
      t = { s with mr := t.mr, ip := s.ip + 1 }) ∧
    (¬ Reachable n m →
      exec (.h sp n m) s = .next (failed (.invalidAddress (n.toNat : Rat) .long) s))

/-- 41_add_multiply.md R85 (decision D4): V. View m+1 gains 4·x·r as signed numbers, modulo 2^WA(m+1); for
m = 0 the 36 bits below view 1 are kept. -/
def Obligations.MultiplyAddOrder : Prop :=
  ∀ sp n m (s : State),
    encode (.v sp n m) &&& 0x1F000#17 = 0x1F000#17 ∧
    (Reachable n m → ∃ t, exec (.v sp n m) s = .next t ∧
      (accRead t m.productView).toInt =
        ((accRead s m.productView).toInt +
          4 * ((s.mem.load n.toNat m).toInt * (mrRead s m).toInt)).bmod (2 ^ m.productView.width) ∧
      t.acc.toNat % 2 ^ (71 - m.productView.width) = s.acc.toNat % 2 ^ (71 - m.productView.width) ∧
      t = { s with acc := t.acc, ip := s.ip + 1 }) ∧
    (¬ Reachable n m →
      exec (.v sp n m) s = .next (failed (.invalidAddress (n.toNat : Rat) .long) s))

/-- 41_add_multiply.md R86 (decision D4): N. View m+1 loses 4·x·r as signed numbers. -/
def Obligations.MultiplySubtractOrder : Prop :=
  ∀ sp n m (s : State),
    encode (.n sp n m) &&& 0x1F000#17 = 0x16000#17 ∧
    (Reachable n m → ∃ t, exec (.n sp n m) s = .next t ∧
      (accRead t m.productView).toInt =
        ((accRead s m.productView).toInt -
          4 * ((s.mem.load n.toNat m).toInt * (mrRead s m).toInt)).bmod (2 ^ m.productView.width) ∧
      t.acc.toNat % 2 ^ (71 - m.productView.width) = s.acc.toNat % 2 ^ (71 - m.productView.width) ∧
      t = { s with acc := t.acc, ip := s.ip + 1 }) ∧
    (¬ Reachable n m →
      exec (.n sp n m) s = .next (failed (.invalidAddress (n.toNat : Rat) .long) s))

/-- 42_store.md R87: U. The named bits of memory become view m of the accumulator; every other bit of memory,
and the accumulator, are kept. -/
def Obligations.StoreOrder : Prop :=
  ∀ sp n m (s : State),
    encode (.u sp n m) &&& 0x1F000#17 = 0x07000#17 ∧
    (Reachable n m → ∃ t, exec (.u sp n m) s = .next t ∧
      t.mem.load n.toNat m = accRead s m.accView ∧ SameOutside n.toNat m s.mem t.mem ∧
      t = { s with mem := t.mem, ip := s.ip + 1 }) ∧
    (¬ Reachable n m →
      exec (.u sp n m) s = .next (failed (.invalidAddress (n.toNat : Rat) .long) s))

/-- 42_store.md R88: T. As U, then all 71 bits of the accumulator are zero, whatever m is; when the store
raises, the accumulator is not cleared. -/
def Obligations.TransferAndClearOrder : Prop :=
  ∀ sp n m (s : State),
    encode (.t sp n m) &&& 0x1F000#17 = 0x05000#17 ∧
    (Reachable n m → ∃ t, exec (.t sp n m) s = .next t ∧
      t.mem.load n.toNat m = accRead s m.accView ∧ SameOutside n.toNat m s.mem t.mem ∧
      t = { s with mem := t.mem, acc := 0, ip := s.ip + 1 }) ∧
    (¬ Reachable n m →
      exec (.t sp n m) s = .next (failed (.invalidAddress (n.toNat : Rat) .long) s))

/-- 43_collate_shift.md R89: C. The bitwise AND of memory and multiplier view m is added to view m.
Encoding: R58, decisions D1, D2 (log entries 5, 6); the recorded error: decision D8 (log entry 1). -/
def Obligations.CollateOrder : Prop :=
  ∀ sp n m (s : State),
    encode (.c sp n m) &&& 0x1F000#17 = 0x1E000#17 ∧
    (Reachable n m → ∃ t, exec (.c sp n m) s = .next t ∧
      (accRead t m.accView).toNat =
        ((accRead s m.accView).toNat +
          ((s.mem.load n.toNat m).toNat &&& (mrRead s m).toNat)) % 2 ^ m.width ∧
      t.acc.toNat % 2 ^ (71 - m.width) = s.acc.toNat % 2 ^ (71 - m.width) ∧
      t = { s with acc := t.acc, ip := s.ip + 1 }) ∧
    (¬ Reachable n m →
      exec (.c sp n m) s = .next (failed (.invalidAddress (n.toNat : Rat) .long) s))

/-- 43_collate_shift.md R90, 30_encoding.md R62 (decision D5): R. With i the lowest set bit of the order word,
at most 11, the accumulator as a signed number is divided by 2^(i+1), rounding down; a word with bits
11..0 zero raises `MalformedOrder`. -/
def Obligations.ShiftRightOrder : Prop :=
  ∀ sp n m (s : State),
    encode (.r sp n m) &&& 0x1F000#17 = 0x04000#17 ∧
    ((encode (.r sp n m)).toNat % 2 ^ 12 ≠ 0 → ∃ i, i < 12 ∧ LowestSet (encode (.r sp n m)) i ∧
      ∃ t, exec (.r sp n m) s = .next t ∧ t.acc.toInt = s.acc.toInt / 2 ^ (i + 1) ∧
        t = { s with acc := t.acc, ip := s.ip + 1 }) ∧
    ((encode (.r sp n m)).toNat % 2 ^ 12 = 0 → encode (.r sp n m) = 0x04000#17 ∧
      exec (.r sp n m) s = .next (failed (.malformedOrder 0x04000#17 (some ['R', '0', 'S'])) s))

/-- 43_collate_shift.md R91, 30_encoding.md R62 (decision D5): L. The accumulator is multiplied by 2^(i+1)
modulo 2^71; a word with bits 11..0 zero raises `MalformedOrder`. -/
def Obligations.ShiftLeftOrder : Prop :=
  ∀ sp n m (s : State),
    encode (.l sp n m) &&& 0x1F000#17 = 0x19000#17 ∧
    ((encode (.l sp n m)).toNat % 2 ^ 12 ≠ 0 → ∃ i, i < 12 ∧ LowestSet (encode (.l sp n m)) i ∧
      ∃ t, exec (.l sp n m) s = .next t ∧ t.acc.toNat = s.acc.toNat * 2 ^ (i + 1) % 2 ^ 71 ∧
        t = { s with acc := t.acc, ip := s.ip + 1 }) ∧
    ((encode (.l sp n m)).toNat % 2 ^ 12 = 0 → encode (.l sp n m) = 0x19000#17 ∧
      exec (.l sp n m) s = .next (failed (.malformedOrder 0x19000#17 (some ['L', '0', 'S'])) s))

/-- 44_control.md R92: E. The jump is taken exactly when the accumulator is not negative, zero included; the
sign is that of every view; nothing but ip changes. -/
def Obligations.JumpIfNonNegativeOrder : Prop :=
  ∀ sp n m (s : State),
    encode (.e sp n m) &&& 0x1F000#17 = 0x03000#17 ∧
    (0 ≤ s.acc.toInt → exec (.e sp n m) s = .next { s with ip := n.toNat }) ∧
    (s.acc.toInt < 0 → exec (.e sp n m) s = .next { s with ip := s.ip + 1 }) ∧
    ∀ v, (accRead s v).toInt < 0 ↔ s.acc.toInt < 0

/-- 44_control.md R93: G. The jump is taken exactly when the accumulator is negative; on zero it falls through;
nothing but ip changes. The pair E, G is PairOfJumpsIsUnconditional. -/
def Obligations.JumpIfNegativeOrder : Prop :=
  ∀ sp n m (s : State),
    encode (.g sp n m) &&& 0x1F000#17 = 0x1B000#17 ∧
    (s.acc.toInt < 0 → exec (.g sp n m) s = .next { s with ip := n.toNat }) ∧
    (0 ≤ s.acc.toInt → exec (.g sp n m) s = .next { s with ip := s.ip + 1 })

/-- 45_io.md R94, 60_exceptions.md R107: I. The code at the tape's front replaces the whole destination: at
bit 0 of a half-word, at bit 18 of a cell. An empty tape is reported first; an odd long address after the
code has been consumed. -/
def Obligations.InputOrder : Prop :=
  ∀ sp n m (s : State),
    encode (.i sp n m) &&& 0x1F000#17 = 0x08000#17 ∧
    (s.tape = [] → exec (.i sp n m) s = .next (failed .tapeExhausted s)) ∧
    ∀ c rest, s.tape = c :: rest →
      (Reachable n m → ∃ t, exec (.i sp n m) s = .next t ∧
        (t.mem.load n.toNat m).toNat = c.toNat * (match m with | .short => 1 | .long => 2 ^ 18) ∧
        SameOutside n.toNat m s.mem t.mem ∧
        t = { s with mem := t.mem, tape := rest, ip := s.ip + 1 }) ∧
      (¬ Reachable n m → exec (.i sp n m) s =
        .next (failed (.invalidAddress (n.toNat : Rat) .long) { s with tape := rest }))

/-- 45_io.md R95: O. The top five bits of the operand are appended to the output and remembered; memory is
not changed. -/
def Obligations.OutputOrder : Prop :=
  ∀ sp n m (s : State),
    encode (.o sp n m) &&& 0x1F000#17 = 0x09000#17 ∧
    (Reachable n m → ∃ c : Code,
      c.toNat = (s.mem.load n.toNat m).toNat / (match m with | .short => 2 ^ 12 | .long => 2 ^ 30) ∧
      exec (.o sp n m) s =
        .next { s with out := s.out ++ [c], lastOut := c, ip := s.ip + 1 }) ∧
    (¬ Reachable n m →
      exec (.o sp n m) s = .next (failed (.invalidAddress (n.toNat : Rat) .long) s))

/-- 45_io.md R96 (decision D6, `F_WRITE = replace`; log entry 8): F. The last output code at bit 12 of a
half-word or bit 30 of a cell, zeros elsewhere in the destination; the output is not changed. -/
def Obligations.ReinjectOrder : Prop :=
  ∀ sp n m (s : State),
    encode (.f sp n m) &&& 0x1F000#17 = 0x11000#17 ∧
    (Reachable n m → ∃ t, exec (.f sp n m) s = .next t ∧
      (t.mem.load n.toNat m).toNat =
        s.lastOut.toNat * (match m with | .short => 2 ^ 12 | .long => 2 ^ 30) ∧
      SameOutside n.toNat m s.mem t.mem ∧ t = { s with mem := t.mem, ip := s.ip + 1 }) ∧
    (¬ Reachable n m →
      exec (.f sp n m) s = .next (failed (.invalidAddress (n.toNat : Rat) .long) s))

/-- 46_misc.md R97: X. Every word of the code is the same no-operation. Encoding: R58, decisions D1, D2 (log
entries 5, 6). -/
def Obligations.NoOperationOrder : Prop :=
  ∀ sp n m (s : State),
    encode (.x sp n m) &&& 0x1F000#17 = 0x1A000#17 ∧
    exec (.x sp n m) s = .next { s with ip := s.ip + 1 }

/-- 46_misc.md R98: Y. 2^35 is added modulo 2^71, so that view 1 holds the old accumulator over 2^36 rounded
to nearest, ties upward. -/
def Obligations.RoundOrder : Prop :=
  ∀ sp n m (s : State),
    encode (.y sp n m) &&& 0x1F000#17 = 0x06000#17 ∧
    ∃ t, exec (.y sp n m) s = .next t ∧
      t.acc.toNat = (s.acc.toNat + 2 ^ 35) % 2 ^ 71 ∧
      (accRead t .upper35).toNat = (s.acc.toNat / 2 ^ 36 + s.acc.toNat / 2 ^ 35 % 2) % 2 ^ 35 ∧
      t = { s with acc := t.acc, ip := s.ip + 1 }

/-- 46_misc.md R99, 40_cycle.md R78: Z. running is false, ip is committed, nothing else changes, and a further
step changes nothing: that it answers the very state is the model's choice over decision D9 (log entry 2).
Encoding: R58, decisions D1, D2 (log entries 5, 6). -/
def Obligations.StopOrder : Prop :=
  ∀ sp n m (s : State),
    encode (.z sp n m) &&& 0x1F000#17 = 0x0D000#17 ∧
    exec (.z sp n m) s = .next { s with running := false, ip := s.ip + 1 } ∧
    step { s with running := false, ip := s.ip + 1 } =
      .next { s with running := false, ip := s.ip + 1 }

/-! ## Two orders together -/

/-- 45_io.md R95: O n L at an even n prints the same code as O (n+1) S. -/
def Obligations.LongOutputIsOddHalfOutput : Prop :=
  ∀ sp sp' n (s : State), n.toNat % 2 = 0 → exec (.o sp n .long) s = exec (.o sp' (n + 1) .short) s

/-- 45_io.md R96: O right after F on one location prints the last code again; and so it does for either value
of the parameter `F_WRITE`. -/
def Obligations.OutputAfterReinjectReprints : Prop :=
  (∀ sp sp' n m (s : State), Reachable n m → ∃ t, exec (.f sp n m) s = .next t ∧
    exec (.o sp' n m) t = .next { t with out := s.out ++ [s.lastOut], ip := s.ip + 2 }) ∧
  ∀ fw m c old, outputCode m (reinject fw m c old) = c

/-- 44_control.md R93: the pair E n, G n is an unconditional jump to n. -/
def Obligations.PairOfJumpsIsUnconditional : Prop :=
  ∀ (s : State) sp sp' n m m', enabled s = true → s.ip + 1 < 1024 →
    decode (s.mem.half s.ip) = .ok (.e sp n m) →
    decode (s.mem.half (s.ip + 1)) = .ok (.g sp' n m') →
    ∃ k, (k = 1 ∨ k = 2) ∧ runSteps k s = .next { s with ip := n.toNat }

/-- 70_reset_and_hazards.md R125, 20_memory.md R53: a store into the next order's location is seen by the very
next step. -/
def Obligations.StoreIsSeenByNextFetch : Prop :=
  ∀ (s : State) sp n i, enabled s = true → s.ip + 1 < 1024 → n.toNat = s.ip + 1 →
    (decode (s.mem.half s.ip) = .ok (.u sp n .short) ∨
      decode (s.mem.half s.ip) = .ok (.t sp n .short)) →
    decode (accRead s .upper17) = .ok i →
    ∃ t, step s = .next t ∧ t.ip = s.ip + 1 ∧ currentOrder t = some i ∧ step t = exec i t

/-- 40_cycle.md R80: an order that overwrites its own location runs as fetched, and the new word is there for
the next fetch. -/
def Obligations.SelfStoreRunsAsFetched : Prop :=
  ∀ (s : State) sp n, enabled s = true → n.toNat = s.ip → decode (s.mem.half s.ip) = .ok (.u sp n .short) →
    ∃ t, step s = .next t ∧ t.mem.half s.ip = accRead s .upper17 ∧
      t = { s with mem := t.mem, ip := s.ip + 1 }

/-! ## The whole machine -/

/-- 10_state.md R26: only Z clears running, only reset sets it again, and a core that is not running takes no
step: that it answers its own state is the model's choice over R73, R78 and decision D9 (log entry 2). -/
def Obligations.OnlyStopClearsRunning : Prop :=
  (∀ s t : State, step s = .next t → t.running ≠ s.running →
    t.running = false ∧ ∃ sp n m, currentOrder s = some (.z sp n m)) ∧
  (∀ (s t : State) sp n m, currentOrder s = some (.z sp n m) → step s = .next t → t.running = false) ∧
  (∀ s : State, (resetAction s).running = true) ∧
  (∀ s : State, s.running = false → step s = .next s)

/-- 10_state.md R28: lastOut is the code most recently appended to the output, only O writes it, and only F
reads it: changing lastOut before a step of any other order changes nothing else after it. Reset makes it 0. -/
def Obligations.OnlyReinjectReadsLastOut : Prop :=
  (∀ s t : State, step s = .next t → t.lastOut ≠ s.lastOut → ∃ sp n m, currentOrder s = some (.o sp n m)) ∧
  (∀ (s t : State) c, (∀ sp n m, currentOrder s ≠ some (.f sp n m)) → step s = .next t →
    ∃ d, step { s with lastOut := c } = .next { t with lastOut := d }) ∧
  (∀ s t : State, step s = .next t → t.out ≠ s.out → t.out = s.out ++ [t.lastOut]) ∧
  (∀ s : State, (resetAction s).lastOut = 0)

/-- 10_state.md R24, 20_memory.md R49, 10_state.md R27: which orders write each piece of state. -/
def Obligations.StateIsWrittenOnlyByItsOrders : Prop :=
  ∀ s t : State, step s = .next t →
    (t.acc ≠ s.acc → ∃ i, currentOrder s = some i ∧ i.letter ∈ [.A, .S, .V, .N, .C, .R, .L, .Y, .T]) ∧
    (t.mr ≠ s.mr → ∃ i, currentOrder s = some i ∧ i.letter = .H) ∧
    (t.mem ≠ s.mem → ∃ i, currentOrder s = some i ∧ i.letter ∈ [.U, .T, .I, .F]) ∧
    (t.tape ≠ s.tape → ∃ i, currentOrder s = some i ∧ i.letter = .I) ∧
    (t.out ≠ s.out → ∃ i, currentOrder s = some i ∧ i.letter = .O)

/-- 40_cycle.md R77, 60_exceptions.md R109 (decision D8): a step that fails changes nothing but the record of
its error, and the tape when I has consumed a code before its write failed. -/
def Obligations.FailureKeepsAllButTheConsumedCode : Prop :=
  ∀ (s t : State) e, enabled s = true → step s = .next t → t.fault = some e →
    t = failed e s ∨
    ∃ sp n c rest, currentOrder s = some (.i sp n .long) ∧ n.toNat % 2 = 1 ∧ s.tape = c :: rest ∧
      e = .invalidAddress (n.toNat : Rat) .long ∧ t = failed e { s with tape := rest }

/-- 60_exceptions.md R103: `TapeExhausted` is raised by I when no code is left, and only then. -/
def Obligations.TapeExhaustedExactlyOnEmptyTape : Prop :=
  ∀ s t : State, enabled s = true → step s = .next t →
    (t.fault = some .tapeExhausted ↔
      s.tape = [] ∧ ∃ sp n m, currentOrder s = some (.i sp n m))

/-- 60_exceptions.md R101: the two ways `InvalidAddress` arises in a step. `s.ip ≤ 1024` is part of the
invariant of StepKeepsInvariant. -/
def Obligations.InvalidAddressArisesInTwoWays : Prop :=
  ∀ (s t : State) a m, enabled s = true → s.ip ≤ 1024 → step s = .next t →
    t.fault = some (.invalidAddress a m) →
    (s.ip = 1024 ∧ a = 1024 ∧ m = .short) ∨
    (∃ i, currentOrder s = some i ∧ accessesMemory i = true ∧ i.mode = .long ∧
      i.address.toNat % 2 = 1 ∧ a = (i.address.toNat : Rat) ∧ m = .long)

/-- 60_exceptions.md R104, R58 (decisions D5, D17): `MalformedOrder` is raised exactly when the word at ip
selects no order, or is a shift with bits 11..0 zero; it carries the word and its printable form. -/
def Obligations.MalformedOrderExactlyOnIllegalWords : Prop :=
  ∀ s t : State, enabled s = true → step s = .next t →
    ((∃ w p, t.fault = some (.malformedOrder w p)) ↔
      s.ip < 1024 ∧ ((s.mem.half s.ip).toNat / 2 ^ 12 ∈ noOrderCodes ∨
        s.mem.half s.ip = 0x04000#17 ∨ s.mem.half s.ip = 0x19000#17)) ∧
    ∀ w p, t.fault = some (.malformedOrder w p) → w = s.mem.half s.ip ∧ p = printableForm w

/-- 60_exceptions.md R102, R105: no step records `WidthMismatch` or `MalformedInput`. -/
def Obligations.HostErrorsNeverAriseInAStep : Prop :=
  ∀ s t : State, enabled s = true → step s = .next t →
    (∀ k l, t.fault ≠ some (.widthMismatch k l)) ∧ ∀ k, t.fault ≠ some (.malformedInput k)

/-! ## The host -/

/-- 20_memory.md R40, 60_exceptions.md R102 (decision D11): a host write checks the address first and the
width second; a refused write has no next state; a write of the right width is `MemWrite`. -/
def Obligations.HostWriteChecksAddressThenWidth : Prop :=
  ∀ (s : State) (a : Rat) (m : Mode) (k : Nat) (v : BitVec k),
    ((¬ ∃ z : Nat, a = (z : Rat) ∧ validAccess z m = true) →
      hostMemWrite a m v s = .fault (.invalidAddress a m)) ∧
    ((∃ z : Nat, a = (z : Rat) ∧ validAccess z m = true) → k ≠ m.width →
      hostMemWrite a m v s = .fault (.widthMismatch m.width k)) ∧
    (∀ (z : Nat) (x : BitVec m.width), validAccess z m = true →
      ∃ t, memWrite s z m x = .ok t ∧ hostMemWrite (z : Rat) m x s = .next t)

/-- 10_state.md R20, R23, 60_exceptions.md R102 (decision D11): a host write of a register view of the wrong
width is refused; of the right width it is `AccWrite` or `MrWrite`. -/
def Obligations.HostRegisterWriteChecksWidth : Prop :=
  ∀ s : State,
    (∀ (v : AccView) (k : Nat) (x : BitVec k), k ≠ v.width →
      hostAccWrite v x s = .fault (.widthMismatch v.width k)) ∧
    (∀ (v : AccView) (x : BitVec v.width), hostAccWrite v x s = .next (accWrite s v x)) ∧
    (∀ (m : Mode) (k : Nat) (x : BitVec k), k ≠ m.width →
      hostMrWrite m x s = .fault (.widthMismatch m.width k)) ∧
    (∀ (m : Mode) (x : BitVec m.width), hostMrWrite m x s = .next (mrWrite s m x))

/-- 30_encoding.md R65, R67, R68: the text of an order, letter, decimal address and mode character, is read
back as its word with the spare bit 0, whatever text follows. That every letter of the codec is accepted is
R70, decision D19 (log entry 9); the word's layout and codes are decisions D1, D2 (log entries 5, 6). -/
def Obligations.TextOfOrderReadsBack : Prop :=
  ∀ (l : Letter) (n : BitVec 10) (m : Mode) (rest : List Char),
    readOrder (orderText l n m ++ rest) = some (orderWord l false n m, rest)

/-- 70_reset_and_hazards.md R122: loading the text of at most 993 orders writes their words at 31, 32, …,
changes no other half-word, sets ip = 31 and leaves everything else. That every letter of the codec is accepted
is R70, decision D19 (log entry 9); that the empty list sets ip = 31 is DEDUCED (log entry 11); the words are
R68, decisions D1, D2 (log entries 5, 6). -/
def Obligations.LoaderPlacesOrdersFromThirtyOne : Prop :=
  ∀ (s : State) (orders : List (Letter × BitVec 10 × Mode)), orders.length ≤ 993 →
    ∃ mem, load (orders.flatMap fun o => orderText o.1 o.2.1 o.2.2) s =
        ⟨{ s with mem := mem, ip := 31 }, none⟩ ∧
      (∀ i o, orders[i]? = some o → mem.half (31 + i) = orderWord o.1 false o.2.1 o.2.2) ∧
      (∀ a, a < 31 ∨ 31 + orders.length ≤ a → mem.half a = s.mem.half a)

/-- 70_reset_and_hazards.md R122, 90_conflicts.md C2, 95_test_vectors.md W8 (decision D19; log entry 11 for
the position): the text A5SZ loads one order and fails, ip not set; A5SZS loads two. -/
def Obligations.LoaderExampleOfTheSource : Prop :=
  (load ['A', '5', 'S', 'Z'] State.reset).error = some (.malformedInput 3) ∧
  (load ['A', '5', 'S', 'Z'] State.reset).state.mem.half 31 = 0x1C00A ∧
  (load ['A', '5', 'S', 'Z'] State.reset).state.ip = 0 ∧
  (load ['A', '5', 'S', 'Z', 'S'] State.reset).error = none ∧
  (load ['A', '5', 'S', 'Z', 'S'] State.reset).state.mem.half 31 = 0x1C00A ∧
  (load ['A', '5', 'S', 'Z', 'S'] State.reset).state.mem.half 32 = 0x0D000 ∧
  (load ['A', '5', 'S', 'Z', 'S'] State.reset).state.ip = 31
end

