-- ==== Sys2Proof/Laws/Decode.lean ====
section
/-! SUPPORT. The letter table is a bijection, the fields of a built word are what it was built from, and every
word is built from its fields. -/

namespace Sys2Proof

/-- The table of codes read back (R57: the map of letters is injective). -/
@[simp] theorem letterOfCode_letterCode (l : Letter) : letterOfCode (letterCode l) = some l := by
  cases l <;> decide

/-- A code that has a letter is that letter's code. -/
theorem letterCode_of_letterOfCode {c : Code} {l : Letter} (h : letterOfCode c = some l) :
    letterCode l = c := by
  simpa using List.find?_some h

@[simp] theorem opField_orderWord (l : Letter) (sp : Bool) (n : BitVec 10) (m : Mode) :
    opField (orderWord l sp n m) = letterCode l := by
  unfold opField orderWord
  ext i hi
  simp
  grind

@[simp] theorem spareField_orderWord (l : Letter) (sp : Bool) (n : BitVec 10) (m : Mode) :
    spareField (orderWord l sp n m) = sp := by
  simp only [spareField, orderWord, BitVec.getLsbD_append, BitVec.getLsbD_ofBool]
  simp

@[simp] theorem addressField_orderWord (l : Letter) (sp : Bool) (n : BitVec 10) (m : Mode) :
    addressField (orderWord l sp n m) = n := by
  unfold addressField orderWord
  ext i hi
  simp
  grind

@[simp] theorem modeField_orderWord (l : Letter) (sp : Bool) (n : BitVec 10) (m : Mode) :
    modeField (orderWord l sp n m) = m := by
  simp only [modeField, orderWord, BitVec.getLsbD_append, BitVec.getLsbD_ofBool]
  cases m <;> simp [Mode.bit]

/-- Every word is the word of its fields (R55). -/
theorem orderWord_of_fields {w : HalfWord} {l : Letter} (h : letterOfCode (opField w) = some l) :
    orderWord l (spareField w) (addressField w) (modeField w) = w := by
  unfold orderWord
  rw [letterCode_of_letterOfCode h]
  refine BitVec.eq_of_getLsbD_eq fun i hi => ?_
  simp only [BitVec.getLsbD_append, opField, spareField, addressField, modeField,
    BitVec.getLsbD_extractLsb', BitVec.getLsbD_ofBool]
  have : i = 0 ∨ i = 11 ∨ (1 ≤ i ∧ i ≤ 10) ∨ 12 ≤ i := by omega
  rcases this with rfl | rfl | h | h
  · cases hb : w.getLsbD 0 <;> simp [Mode.bit]
  · simp
  · grind
  · grind

/-- The order a letter selects has that letter and those fields. -/
theorem orderOfLetter_eq_some {l : Letter} {sp : Bool} {n : BitVec 10} {m : Mode} {i : Instr}
    (h : orderOfLetter l sp n m = some i) :
    i.letter = l ∧ i.spare = sp ∧ i.address = n ∧ i.mode = m := by
  cases l <;> simp only [orderOfLetter, Option.some.injEq, reduceCtorEq] at h <;> subst h <;>
    exact ⟨rfl, rfl, rfl, rfl⟩

/-- An order is the one its letter and fields select. -/
theorem orderOfLetter_fields (i : Instr) :
    orderOfLetter i.letter i.spare i.address i.mode = some i := by cases i <;> rfl

/-- What a decoded word says of its fields. -/
theorem decode_eq_ok {w : HalfWord} {i : Instr} (h : decode w = .ok i) :
    letterOfCode (opField w) = some i.letter ∧ i.spare = spareField w ∧
      i.address = addressField w ∧ i.mode = modeField w := by
  unfold decode at h
  split at h
  · rename_i j hj
    cases h
    obtain ⟨l, hl, ho⟩ := Option.bind_eq_some_iff.1 hj
    obtain ⟨h₁, h₂, h₃, h₄⟩ := orderOfLetter_eq_some ho
    exact ⟨h₁ ▸ hl, h₂, h₃, h₄⟩
  · cases h

/-- The decoder on a word with a letter. -/
theorem decode_of_letter {w : HalfWord} {l : Letter} (h : letterOfCode (opField w) = some l) :
    decode w = match orderOfLetter l (spareField w) (addressField w) (modeField w) with
      | some i => .ok i
      | none => .error (.selectsNoOrder w) := by
  unfold decode
  rw [h]
  rfl

/-- A rejected word carries itself. -/
theorem decode_eq_error {w : HalfWord} {e : DecodeError} (h : decode w = .error e) :
    e = .selectsNoOrder w := by
  unfold decode at h
  split at h <;> cases h
  rfl

/-- The word a letter and fields build decodes to the order they select. -/
theorem decode_orderWord (l : Letter) (sp : Bool) (n : BitVec 10) (m : Mode) :
    decode (orderWord l sp n m) = match orderOfLetter l sp n m with
      | some i => .ok i
      | none => .error (.selectsNoOrder (orderWord l sp n m)) := by
  rw [decode_of_letter (l := l) (by simp)]
  simp

/-- The count field is empty exactly when all three fields are (R62). -/
theorem countField_orderWord (l : Letter) (sp : Bool) (n : BitVec 10) (m : Mode) :
    countField (orderWord l sp n m) = 0 ↔ emptyCountField sp n m = true := by
  have h : (countField (orderWord l sp n m)).toNat =
      sp.toNat * 2 ^ 11 + n.toNat * 2 + m.bit.toNat := by
    unfold countField orderWord
    have hn := n.isLt
    have hsp : sp.toNat < 2 := Bool.toNat_lt sp
    have hm : m.bit.toNat < 2 := Bool.toNat_lt _
    rw [BitVec.extractLsb'_toNat, BitVec.toNat_append, BitVec.toNat_append, BitVec.toNat_append,
      ← Nat.shiftLeft_add_eq_or_of_lt (BitVec.isLt _), ← Nat.shiftLeft_add_eq_or_of_lt (BitVec.isLt _),
      ← Nat.shiftLeft_add_eq_or_of_lt (BitVec.isLt _)]
    simp only [Nat.shiftLeft_eq, BitVec.toNat_ofBool, Nat.shiftRight_zero]
    omega
  rw [BitVec.toNat_eq, h]
  cases sp <;> cases m <;> simp [emptyCountField, Mode.bit, BitVec.toNat_eq]

end Sys2Proof
end

