-- ==== Sys2Proof/Laws/Memory.lean ====
section
/-! SUPPORT. The memory bank: read after write, what a write leaves alone, and the canonical form. -/

namespace Sys2Proof.Machine

namespace Memory

/-! ## Cells -/

@[simp] theorem cell_nil (k : Nat) : Memory.cell [] k = 0 := rfl

@[simp] theorem cell_cons (j k : Nat) (v : FullWord) (rest : Memory) :
    Memory.cell ((j, v) :: rest) k = if j = k then v else Memory.cell rest k := rfl

theorem cell_erase (mem : Memory) (k k' : Nat) :
    (mem.erase k).cell k' = if k = k' then 0 else mem.cell k' := by
  unfold Memory.erase
  induction mem with
  | nil => simp
  | cons e rest ih =>
    obtain ⟨j, x⟩ := e
    rw [List.filter_cons]
    by_cases hjk : j = k
    · by_cases hkk : k = k' <;> simp_all
    · by_cases hjk' : j = k'
      · have : ¬ k = k' := fun h => hjk (hjk'.trans h.symm)
        simp_all
      · simp_all

theorem cell_insert (k k' : Nat) (v : FullWord) : ∀ {mem : Memory},
    mem.all (·.1 != k) = true →
      (mem.insert k v).cell k' = if k = k' then v else mem.cell k'
  | [], _ => by simp [Memory.insert]
  | (j, x) :: rest, hall => by
    simp only [List.all_cons, Bool.and_eq_true, bne_iff_ne, ne_eq] at hall
    have ih := cell_insert k k' v hall.2
    unfold Memory.insert
    split
    · rw [cell_cons]
    · rw [cell_cons, cell_cons, ih]
      by_cases hkk : k = k'
      · subst hkk; simp [hall.1]
      · simp [hkk]

theorem erase_all_ne (mem : Memory) (k : Nat) : (mem.erase k).all (·.1 != k) = true := by
  simp [Memory.erase]

/-- Reading a cell after writing one: the written value at the written cell, the old value elsewhere. -/
@[simp] theorem cell_setCell (mem : Memory) (k k' : Nat) (v : FullWord) :
    (mem.setCell k v).cell k' = if k = k' then v else mem.cell k' := by
  unfold Memory.setCell
  split
  · rename_i hv; rw [cell_erase, hv]
  · rw [cell_insert _ _ _ (erase_all_ne mem k), cell_erase]
    by_cases h : k = k' <;> simp [h]

/-! ## The canonical form -/

theorem wfFrom_cons (lo k : Nat) (v : FullWord) (rest : Memory) :
    Memory.wfFrom lo ((k, v) :: rest) = true ↔
      lo ≤ k ∧ k < 512 ∧ v ≠ 0 ∧ Memory.wfFrom (k + 1) rest = true := by
  simp [Memory.wfFrom, Config.cells, and_assoc]

theorem wfFrom_mono {lo lo' : Nat} (h : lo ≤ lo') : ∀ {mem : Memory},
    Memory.wfFrom lo' mem = true → Memory.wfFrom lo mem = true
  | [], _ => rfl
  | (k, v) :: rest, hw => by
    rw [wfFrom_cons] at hw ⊢
    exact ⟨h.trans hw.1, hw.2⟩

/-- A canonical list has nothing below its bound. -/
theorem cell_below {lo k : Nat} (hk : k < lo) : ∀ {mem : Memory},
    Memory.wfFrom lo mem = true → mem.cell k = 0
  | [], _ => rfl
  | (j, v) :: rest, hw => by
    rw [wfFrom_cons] at hw
    rw [cell_cons, if_neg (by omega)]
    exact cell_below (lo := j + 1) (by omega) hw.2.2.2

theorem wfFrom_erase {k : Nat} : ∀ {lo : Nat} {mem : Memory},
    Memory.wfFrom lo mem = true → Memory.wfFrom lo (mem.erase k) = true
  | _, [], _ => rfl
  | lo, (j, x) :: rest, hw => by
    rw [wfFrom_cons] at hw
    have ih := wfFrom_erase (k := k) hw.2.2.2
    unfold Memory.erase at ih ⊢
    rw [List.filter_cons]
    split
    · rw [wfFrom_cons]; exact ⟨hw.1, hw.2.1, hw.2.2.1, ih⟩
    · exact wfFrom_mono (by omega) ih

theorem wfFrom_insert {k : Nat} {v : FullWord} (hk : k < 512) (hv : v ≠ 0) :
    ∀ {lo : Nat} {mem : Memory}, lo ≤ k → Memory.wfFrom lo mem = true →
      mem.all (·.1 != k) = true → Memory.wfFrom lo (mem.insert k v) = true
  | lo, [], hlo, _, _ => (wfFrom_cons _ _ _ _).2 ⟨hlo, hk, hv, rfl⟩
  | lo, (j, x) :: rest, hlo, hw, hall => by
    rw [wfFrom_cons] at hw
    simp only [List.all_cons, Bool.and_eq_true, bne_iff_ne, ne_eq] at hall
    unfold Memory.insert
    split
    · rename_i hlt
      rw [wfFrom_cons, wfFrom_cons]
      exact ⟨hlo, hk, hv, by omega, hw.2.1, hw.2.2.1, hw.2.2.2⟩
    · rename_i hge
      rw [wfFrom_cons]
      exact ⟨hw.1, hw.2.1, hw.2.2.1, wfFrom_insert hk hv (by omega) hw.2.2.2 hall.2⟩

/-- Every write of a cell of the bank keeps the canonical form. -/
theorem wf_setCell {mem : Memory} {k : Nat} (v : FullWord) (hk : k < 512) (hw : mem.wf = true) :
    (mem.setCell k v).wf = true := by
  unfold Memory.setCell Memory.wf at *
  split
  · exact wfFrom_erase hw
  · rename_i hv
    exact wfFrom_insert hk hv (Nat.zero_le k) (wfFrom_erase hw) (erase_all_ne mem k)

/-- A canonical bank lists nothing at 512 or above. -/
theorem cell_above {k : Nat} (hk : 512 ≤ k) : ∀ {lo : Nat} {mem : Memory},
    Memory.wfFrom lo mem = true → mem.cell k = 0
  | _, [], _ => rfl
  | _, (j, v) :: rest, hw => by
    rw [wfFrom_cons] at hw
    rw [cell_cons, if_neg (by omega)]
    exact cell_above hk hw.2.2.2

theorem ext_from : ∀ {lo : Nat} {m₁ m₂ : Memory}, Memory.wfFrom lo m₁ = true →
    Memory.wfFrom lo m₂ = true → (∀ k, m₁.cell k = m₂.cell k) → m₁ = m₂
  | _, [], [], _, _, _ => rfl
  | _, [], (k, v) :: rest, _, hw, h => by
    rw [wfFrom_cons] at hw
    exact absurd (h k).symm (by simpa using hw.2.2.1)
  | _, (k, v) :: rest, [], hw, _, h => by
    rw [wfFrom_cons] at hw
    exact absurd (h k) (by simpa using hw.2.2.1)
  | _, (j, x) :: r₁, (k, y) :: r₂, h₁, h₂, h => by
    rw [wfFrom_cons] at h₁ h₂
    have hjk : j = k := by
      rcases Nat.lt_trichotomy j k with hlt | heq | hgt
      · have := h j
        rw [cell_cons, if_pos rfl, cell_cons, if_neg (by omega),
          cell_below (lo := k + 1) (by omega) h₂.2.2.2] at this
        exact absurd this h₁.2.2.1
      · exact heq
      · have := h k
        rw [cell_cons, if_neg (by omega), cell_cons, if_pos rfl,
          cell_below (lo := j + 1) (by omega) h₁.2.2.2] at this
        exact absurd this.symm h₂.2.2.1
    subst hjk
    have hxy : x = y := by simpa using h j
    subst hxy
    have : r₁ = r₂ := by
      refine ext_from h₁.2.2.2 h₂.2.2.2 fun i => ?_
      by_cases hij : j = i
      · subst hij
        rw [cell_below (Nat.lt_succ_self j) h₁.2.2.2, cell_below (Nat.lt_succ_self j) h₂.2.2.2]
      · simpa [hij] using h i
    rw [this]

/-- Canonical banks that read the same everywhere are the same list. -/
theorem ext_of_cells {m₁ m₂ : Memory} (h₁ : m₁.wf = true) (h₂ : m₂.wf = true)
    (h : ∀ k, m₁.cell k = m₂.cell k) : m₁ = m₂ := ext_from h₁ h₂ h

/-! ## Loads and stores -/

@[simp] theorem cell_store_short (mem : Memory) (a k : Nat) (v : HalfWord) :
    (mem.store a .short v).cell k =
      if a / 2 = k then setHalfOfCell (mem.cell (a / 2)) a v else mem.cell k :=
  cell_setCell _ _ _ _

@[simp] theorem cell_store_long (mem : Memory) (a k : Nat) (v : FullWord) :
    (mem.store a .long v).cell k = if a / 2 = k then v else mem.cell k :=
  cell_setCell _ _ _ _

/-- A write reaches only the cell its address lies in. -/
theorem cell_store_of_ne (mem : Memory) (a k : Nat) (m : Mode) (v : BitVec m.width)
    (h : a / 2 ≠ k) : (mem.store a m v).cell k = mem.cell k := by
  cases m <;> simp [h]

/-- Every valid write keeps the canonical form. -/
theorem wf_store {mem : Memory} {a : Nat} {m : Mode} (v : BitVec m.width)
    (ha : a < 1024) (hw : mem.wf = true) : (mem.store a m v).wf = true := by
  cases m <;> exact wf_setCell _ (by omega) hw

end Memory

/-- The half of a cell just written reads back, and the other half is kept (R40). -/
theorem halfOfCell_setHalfOfCell (c : FullWord) (a b : Nat) (v : HalfWord) :
    halfOfCell (setHalfOfCell c a v) b = if a % 2 = b % 2 then v else halfOfCell c b := by
  unfold halfOfCell setHalfOfCell
  rcases Nat.mod_two_eq_zero_or_one a with ha | ha <;>
    rcases Nat.mod_two_eq_zero_or_one b with hb | hb <;>
    simp only [ha, hb, if_true, if_false, zero_ne_one, one_ne_zero] <;>
    ext i hi <;> simp <;> grind

namespace Memory

/-- Reading a half-word after writing one. -/
theorem half_store_short (mem : Memory) (a b : Nat) (v : HalfWord) :
    (mem.store a .short v).half b = if a = b then v else mem.half b := by
  unfold Memory.half
  rw [cell_store_short]
  by_cases hk : a / 2 = b / 2
  · rw [if_pos hk, halfOfCell_setHalfOfCell, hk]
    by_cases hp : a % 2 = b % 2
    · rw [if_pos hp, if_pos (by omega)]
    · rw [if_neg hp, if_neg (by omega)]
  · rw [if_neg hk, if_neg (by omega)]

/-- R42: a load after a store at the same address and mode. -/
@[simp] theorem load_store (mem : Memory) (a : Nat) (m : Mode) (v : BitVec m.width) :
    (mem.store a m v).load a m = v := by
  cases m with
  | short => exact (half_store_short mem a a v).trans (if_pos rfl)
  | long => simp [Memory.load]

end Memory

end Sys2Proof.Machine
end

