-- ==== Sys2Proof/Laws/State.lean ====
section
/-! SUPPORT. One lemma per field and update of the state: what each named operation leaves in each field. -/

namespace Sys2Proof.Machine

/-! ## `accWrite` changes acc alone -/

@[simp] theorem accWrite_mem (s : State) (v : AccView) (x : BitVec v.width) :
    (accWrite s v x).mem = s.mem := by cases v <;> rfl
@[simp] theorem accWrite_mr (s : State) (v : AccView) (x : BitVec v.width) :
    (accWrite s v x).mr = s.mr := by cases v <;> rfl
@[simp] theorem accWrite_ip (s : State) (v : AccView) (x : BitVec v.width) :
    (accWrite s v x).ip = s.ip := by cases v <;> rfl
@[simp] theorem accWrite_running (s : State) (v : AccView) (x : BitVec v.width) :
    (accWrite s v x).running = s.running := by cases v <;> rfl
@[simp] theorem accWrite_tape (s : State) (v : AccView) (x : BitVec v.width) :
    (accWrite s v x).tape = s.tape := by cases v <;> rfl
@[simp] theorem accWrite_out (s : State) (v : AccView) (x : BitVec v.width) :
    (accWrite s v x).out = s.out := by cases v <;> rfl
@[simp] theorem accWrite_lastOut (s : State) (v : AccView) (x : BitVec v.width) :
    (accWrite s v x).lastOut = s.lastOut := by cases v <;> rfl
@[simp] theorem accWrite_fault (s : State) (v : AccView) (x : BitVec v.width) :
    (accWrite s v x).fault = s.fault := by cases v <;> rfl

/-- `accWrite` as one record update. -/
theorem accWrite_eq (s : State) (v : AccView) (x : BitVec v.width) :
    accWrite s v x = { s with acc := (accWrite s v x).acc } := by cases v <;> rfl

/-! ## `mrWrite` changes mr alone -/

@[simp] theorem mrWrite_mem (s : State) (m : Mode) (x : BitVec m.width) :
    (mrWrite s m x).mem = s.mem := by cases m <;> rfl
@[simp] theorem mrWrite_acc (s : State) (m : Mode) (x : BitVec m.width) :
    (mrWrite s m x).acc = s.acc := by cases m <;> rfl
@[simp] theorem mrWrite_ip (s : State) (m : Mode) (x : BitVec m.width) :
    (mrWrite s m x).ip = s.ip := by cases m <;> rfl
@[simp] theorem mrWrite_running (s : State) (m : Mode) (x : BitVec m.width) :
    (mrWrite s m x).running = s.running := by cases m <;> rfl
@[simp] theorem mrWrite_tape (s : State) (m : Mode) (x : BitVec m.width) :
    (mrWrite s m x).tape = s.tape := by cases m <;> rfl
@[simp] theorem mrWrite_out (s : State) (m : Mode) (x : BitVec m.width) :
    (mrWrite s m x).out = s.out := by cases m <;> rfl
@[simp] theorem mrWrite_lastOut (s : State) (m : Mode) (x : BitVec m.width) :
    (mrWrite s m x).lastOut = s.lastOut := by cases m <;> rfl
@[simp] theorem mrWrite_fault (s : State) (m : Mode) (x : BitVec m.width) :
    (mrWrite s m x).fault = s.fault := by cases m <;> rfl

/-- `mrWrite` as one record update. -/
theorem mrWrite_eq (s : State) (m : Mode) (x : BitVec m.width) :
    mrWrite s m x = { s with mr := (mrWrite s m x).mr } := by cases m <;> rfl

/-! ## `outWrite` changes out and lastOut alone -/

@[simp] theorem outWrite_mem (s : State) (c : Code) : (outWrite s c).mem = s.mem := rfl
@[simp] theorem outWrite_acc (s : State) (c : Code) : (outWrite s c).acc = s.acc := rfl
@[simp] theorem outWrite_mr (s : State) (c : Code) : (outWrite s c).mr = s.mr := rfl
@[simp] theorem outWrite_ip (s : State) (c : Code) : (outWrite s c).ip = s.ip := rfl
@[simp] theorem outWrite_running (s : State) (c : Code) : (outWrite s c).running = s.running := rfl
@[simp] theorem outWrite_tape (s : State) (c : Code) : (outWrite s c).tape = s.tape := rfl
@[simp] theorem outWrite_out (s : State) (c : Code) : (outWrite s c).out = s.out ++ [c] := rfl
@[simp] theorem outWrite_lastOut (s : State) (c : Code) : (outWrite s c).lastOut = c := rfl
@[simp] theorem outWrite_fault (s : State) (c : Code) : (outWrite s c).fault = s.fault := rfl

/-! ## `resetAction` keeps tape and out alone -/

@[simp] theorem resetAction_mem (s : State) : (resetAction s).mem = [] := rfl
@[simp] theorem resetAction_acc (s : State) : (resetAction s).acc = 0 := rfl
@[simp] theorem resetAction_mr (s : State) : (resetAction s).mr = 0 := rfl
@[simp] theorem resetAction_ip (s : State) : (resetAction s).ip = 0 := rfl
@[simp] theorem resetAction_running (s : State) : (resetAction s).running = true := rfl
@[simp] theorem resetAction_tape (s : State) : (resetAction s).tape = s.tape := rfl
@[simp] theorem resetAction_out (s : State) : (resetAction s).out = s.out := rfl
@[simp] theorem resetAction_lastOut (s : State) : (resetAction s).lastOut = 0 := rfl
@[simp] theorem resetAction_fault (s : State) : (resetAction s).fault = none := rfl

/-! ## `placeWord` changes mem, ip, running and fault -/

@[simp] theorem placeWord_acc (s : State) (w : HalfWord) : (placeWord s w).acc = s.acc := rfl
@[simp] theorem placeWord_mr (s : State) (w : HalfWord) : (placeWord s w).mr = s.mr := rfl
@[simp] theorem placeWord_running (s : State) (w : HalfWord) : (placeWord s w).running = true := rfl
@[simp] theorem placeWord_tape (s : State) (w : HalfWord) : (placeWord s w).tape = s.tape := rfl
@[simp] theorem placeWord_out (s : State) (w : HalfWord) : (placeWord s w).out = s.out := rfl
@[simp] theorem placeWord_lastOut (s : State) (w : HalfWord) : (placeWord s w).lastOut = s.lastOut := rfl
@[simp] theorem placeWord_fault (s : State) (w : HalfWord) : (placeWord s w).fault = none := rfl

end Sys2Proof.Machine
end

