-- ==== Sys2Proof/Laws/Ops.lean ====
section
/-! SUPPORT. One lemma per shared operation: what a memory access, a tape read, a raise and a commit can do. -/

namespace Sys2Proof.Machine

/-- R38 for the address field of an order, which is always below 1024. -/
theorem validAccess_field (n : BitVec 10) (m : Mode) :
    validAccess n.toNat m = true ↔ m = .short ∨ n.toNat % 2 = 0 := by
  have := n.isLt
  cases m <;> simp [validAccess, Config.halfAddrs] <;> omega

theorem validAccess_iff (a : Nat) (m : Mode) :
    validAccess a m = true ↔ a < 1024 ∧ (m = .short ∨ a % 2 = 0) := by
  cases m <;> simp [validAccess, Config.halfAddrs]

theorem validAccess_short (a : Nat) : validAccess a .short = true ↔ a < 1024 := by
  simp [validAccess_iff]

/-- The access of an order that is not valid is a long one at an odd address (R101). -/
theorem not_validAccess_field {n : BitVec 10} {m : Mode} (h : ¬ validAccess n.toNat m = true) :
    m = .long ∧ n.toNat % 2 = 1 := by
  rw [validAccess_field] at h
  cases m <;> simp_all

theorem memRead_of_valid {s : State} {a : Nat} {m : Mode} (h : validAccess a m = true) :
    memRead s a m = .ok (s.mem.load a m) := if_pos h

theorem memRead_of_not_valid {s : State} {a : Nat} {m : Mode} (h : ¬ validAccess a m = true) :
    memRead s a m = .error (.invalidAddress (a : Rat) m) := if_neg h

theorem memWrite_of_valid {s : State} {a : Nat} {m : Mode} {v : BitVec m.width}
    (h : validAccess a m = true) : memWrite s a m v = .ok { s with mem := s.mem.store a m v } :=
  if_pos h

theorem memWrite_of_not_valid {s : State} {a : Nat} {m : Mode} {v : BitVec m.width}
    (h : ¬ validAccess a m = true) : memWrite s a m v = .error (.invalidAddress (a : Rat) m) :=
  if_neg h

/-- `TapeRead` on an empty tape raises and changes nothing (R111). -/
theorem tapeRead_of_nil {s : State} (h : s.tape = []) : tapeRead s = .error .tapeExhausted := by
  rw [tapeRead, h]

/-- `TapeRead` consumes the code at the front (R111). -/
theorem tapeRead_of_cons {s : State} {c : Code} {rest : List Code} (h : s.tape = c :: rest) :
    tapeRead s = .ok (c, { s with tape := rest }) := by
  rw [tapeRead, h]

@[simp] theorem orRaise_ok {α : Type} (s : State) (x : α)
    (k : α → Host.Outcome State Fault Refusal) : orRaise s (.ok x) k = k x := rfl

@[simp] theorem orRaise_error {α : Type} (s : State) (e : Fault)
    (k : α → Host.Outcome State Fault Refusal) : orRaise s (.error e) k = raise e s := rfl

/-- A raise answers the state it is given with the error recorded, and nothing else (R77). -/
theorem raise_eq (e : Fault) (s : State) : raise e s = .next { s with fault := some e } := rfl

/-- A commit answers the state it is given with the new ip, and nothing else (R75). -/
theorem commit_eq (a : Nat) (s : State) : commit a s = .next { s with ip := a } := rfl

theorem commitNext_eq (s : State) : commitNext s = .next { s with ip := s.ip + 1 } := rfl

/-- An order that reads memory: its effect when the access is valid, the recorded error when it is not. -/
theorem orRaise_memRead (s : State) (a : Nat) (m : Mode)
    (k : BitVec m.width → Host.Outcome State Fault Refusal) :
    orRaise s (memRead s a m) k =
      if validAccess a m = true then k (s.mem.load a m)
      else .next { s with fault := some (.invalidAddress (a : Rat) m) } := by
  by_cases h : validAccess a m = true
  · rw [memRead_of_valid h, orRaise_ok, if_pos h]
  · rw [memRead_of_not_valid h, orRaise_error, raise_eq, if_neg h]

/-- An order that writes memory: the state with the write when the access is valid, the recorded error in the
state r when it is not. -/
theorem orRaise_memWrite (r s : State) (a : Nat) (m : Mode) (v : BitVec m.width)
    (k : State → Host.Outcome State Fault Refusal) :
    orRaise r (memWrite s a m v) k =
      if validAccess a m = true then k { s with mem := s.mem.store a m v }
      else .next { r with fault := some (.invalidAddress (a : Rat) m) } := by
  by_cases h : validAccess a m = true
  · rw [memWrite_of_valid h, orRaise_ok, if_pos h]
  · rw [memWrite_of_not_valid h, orRaise_error, raise_eq, if_neg h]

/-! ## The shift count -/

/-- The lowest set bit is set and everything below it is clear. -/
theorem lowestSetBit_eq_some {k i : Nat} (w : BitVec k) :
    lowestSetBit w = some i ↔ i < k ∧ w.getLsbD i = true ∧ ∀ j, j < i → w.getLsbD j = false := by
  unfold lowestSetBit
  rw [List.find?_range_eq_some]
  simp
  tauto

theorem lowestSetBit_eq_none {k : Nat} (w : BitVec k) : lowestSetBit w = none ↔ w = 0 := by
  unfold lowestSetBit
  rw [List.find?_range_eq_none]
  constructor
  · intro h
    refine BitVec.eq_of_getLsbD_eq fun i hi => ?_
    simpa using h i hi
  · rintro rfl; simp

/-- R62: either w[11:0] is zero and there is no count, or the count is i + 1 for the lowest set bit i ≤ 11. -/
theorem shiftCount_cases (w : HalfWord) :
    (countField w = 0 ∧ shiftCount w = none) ∨
    (countField w ≠ 0 ∧ ∃ i, i < 12 ∧ w.getLsbD i = true ∧ (∀ j, j < i → w.getLsbD j = false) ∧
      shiftCount w = some (i + 1)) := by
  unfold shiftCount
  by_cases h : countField w = 0
  · exact .inl ⟨h, if_pos h⟩
  · refine .inr ⟨h, ?_⟩
    rw [if_neg h]
    cases hl : lowestSetBit w with
    | none =>
      exact absurd (by rw [(lowestSetBit_eq_none w).1 hl]; decide) h
    | some i =>
      obtain ⟨hi, hset, hlow⟩ := (lowestSetBit_eq_some w).1 hl
      refine ⟨i, ?_, hset, hlow, rfl⟩
      by_contra hge
      refine h (BitVec.eq_of_getLsbD_eq fun j hj => ?_)
      simp only [countField, BitVec.getLsbD_extractLsb', hj, Nat.zero_add]
      simpa using hlow j (by omega)

end Sys2Proof.Machine
end

