-- ==== Sys2Proof/Laws/Exec.lean ====
section
/-! SUPPORT. One equation per order: its whole answer, as record updates of the state it runs in. Later proofs
cite these instead of unfolding a meaning. -/

namespace Sys2Proof.Machine

variable (sp : Bool) (n : BitVec 10) (m : Mode) (s : State)

/-- The answer of an order whose one memory access is a long one at an odd address. -/
def badAccess (n : BitVec 10) (m : Mode) (s : State) : Host.Outcome State Fault Refusal :=
  .next { s with fault := some (.invalidAddress (n.toNat : Rat) m) }

theorem exec_a : exec (.a sp n m) s =
    if validAccess n.toNat m = true then
      .next { s with
        acc := (accWrite s m.accView (accRead s m.accView + s.mem.load n.toNat m)).acc, ip := s.ip + 1 }
    else badAccess n m s := by
  rw [show exec (.a sp n m) s = execA sp n m s from rfl, execA, orRaise_memRead, commitNext_eq, accWrite_eq]
  rfl

theorem exec_s : exec (.s sp n m) s =
    if validAccess n.toNat m = true then
      .next { s with
        acc := (accWrite s m.accView (accRead s m.accView - s.mem.load n.toNat m)).acc, ip := s.ip + 1 }
    else badAccess n m s := by
  rw [show exec (.s sp n m) s = execS sp n m s from rfl, execS, orRaise_memRead, commitNext_eq, accWrite_eq]
  rfl

theorem exec_h : exec (.h sp n m) s =
    if validAccess n.toNat m = true then
      .next { s with mr := (mrWrite s m (s.mem.load n.toNat m)).mr, ip := s.ip + 1 }
    else badAccess n m s := by
  rw [show exec (.h sp n m) s = execH sp n m s from rfl, execH, orRaise_memRead, commitNext_eq, mrWrite_eq]
  rfl

theorem exec_v : exec (.v sp n m) s =
    if validAccess n.toNat m = true then
      .next { s with
        acc := (accWrite s m.productView (accRead s m.productView +
          productFor m (s.mem.load n.toNat m) (mrRead s m))).acc, ip := s.ip + 1 }
    else badAccess n m s := by
  rw [show exec (.v sp n m) s = execV sp n m s from rfl, execV, orRaise_memRead, commitNext_eq, accWrite_eq]
  rfl

theorem exec_n : exec (.n sp n m) s =
    if validAccess n.toNat m = true then
      .next { s with
        acc := (accWrite s m.productView (accRead s m.productView -
          productFor m (s.mem.load n.toNat m) (mrRead s m))).acc, ip := s.ip + 1 }
    else badAccess n m s := by
  rw [show exec (.n sp n m) s = execN sp n m s from rfl, execN, orRaise_memRead, commitNext_eq, accWrite_eq]
  rfl

theorem exec_u : exec (.u sp n m) s =
    if validAccess n.toNat m = true then
      .next { s with mem := s.mem.store n.toNat m (accRead s m.accView), ip := s.ip + 1 }
    else badAccess n m s := by
  rw [show exec (.u sp n m) s = execU sp n m s from rfl, execU, orRaise_memWrite]
  rfl

theorem exec_t : exec (.t sp n m) s =
    if validAccess n.toNat m = true then
      .next { s with mem := s.mem.store n.toNat m (accRead s m.accView), acc := 0, ip := s.ip + 1 }
    else badAccess n m s := by
  rw [show exec (.t sp n m) s = execT sp n m s from rfl, execT, orRaise_memWrite]
  rfl

theorem exec_c : exec (.c sp n m) s =
    if validAccess n.toNat m = true then
      .next { s with
        acc := (accWrite s m.accView (accRead s m.accView +
          (s.mem.load n.toNat m &&& mrRead s m))).acc, ip := s.ip + 1 }
    else badAccess n m s := by
  rw [show exec (.c sp n m) s = execC sp n m s from rfl, execC, orRaise_memRead, commitNext_eq, accWrite_eq]
  rfl

theorem exec_r : exec (.r sp n m) s =
    match shiftCount (orderWord .R sp n m) with
    | some k => .next { s with acc := s.acc.sshiftRight k, ip := s.ip + 1 }
    | none => .next { s with fault := some (malformed (orderWord .R sp n m)) } := by
  rw [show exec (.r sp n m) s = execR sp n m s from rfl, execR, countOrMalformed]
  cases shiftCount (orderWord .R sp n m) <;> rfl

theorem exec_l : exec (.l sp n m) s =
    match shiftCount (orderWord .L sp n m) with
    | some k => .next { s with acc := s.acc <<< k, ip := s.ip + 1 }
    | none => .next { s with fault := some (malformed (orderWord .L sp n m)) } := by
  rw [show exec (.l sp n m) s = execL sp n m s from rfl, execL, countOrMalformed]
  cases shiftCount (orderWord .L sp n m) <;> rfl

theorem exec_e : exec (.e sp n m) s =
    .next { s with ip := if accNegative s = true then s.ip + 1 else n.toNat } := by
  rw [show exec (.e sp n m) s = execE sp n m s from rfl, execE]
  split <;> rfl

theorem exec_g : exec (.g sp n m) s =
    .next { s with ip := if accNegative s = true then n.toNat else s.ip + 1 } := by
  rw [show exec (.g sp n m) s = execG sp n m s from rfl, execG]
  split <;> rfl

/-- I on an empty tape, whatever its operand (R94, R107). -/
theorem exec_i_of_nil (h : s.tape = []) :
    exec (.i sp n m) s = .next { s with fault := some .tapeExhausted } := by
  rw [show exec (.i sp n m) s = execI sp n m s from rfl, execI, tapeRead_of_nil h]
  rfl

/-- I with a code c at the front of the tape. -/
theorem exec_i_of_cons {c : Code} {rest : List Code} (h : s.tape = c :: rest) :
    exec (.i sp n m) s =
      if validAccess n.toNat m = true then
        .next { s with mem := s.mem.store n.toNat m (inputWord m c), tape := rest, ip := s.ip + 1 }
      else badAccess n m { s with tape := rest } := by
  rw [show exec (.i sp n m) s = execI sp n m s from rfl, execI, tapeRead_of_cons h]
  simp only [orRaise_ok, orRaise_memWrite]
  rfl

theorem exec_o : exec (.o sp n m) s =
    if validAccess n.toNat m = true then
      .next { s with
        out := s.out ++ [outputCode m (s.mem.load n.toNat m)],
        lastOut := outputCode m (s.mem.load n.toNat m), ip := s.ip + 1 }
    else badAccess n m s := by
  rw [show exec (.o sp n m) s = execO sp n m s from rfl, execO, orRaise_memRead]
  rfl

theorem exec_f : exec (.f sp n m) s =
    if validAccess n.toNat m = true then
      .next { s with mem := s.mem.store n.toNat m (reinjectWord m s.lastOut), ip := s.ip + 1 }
    else badAccess n m s := by
  rw [show exec (.f sp n m) s = execF sp n m s from rfl, execF, orRaise_memRead]
  split
  · rename_i h
    rw [orRaise_memWrite, if_pos h]
    rfl
  · rfl

theorem exec_x : exec (.x sp n m) s = .next { s with ip := s.ip + 1 } := rfl

theorem exec_y : exec (.y sp n m) s =
    .next { s with acc := s.acc + BitVec.twoPow 71 35, ip := s.ip + 1 } := by
  rw [show exec (.y sp n m) s = execY sp n m s from rfl, execY, commitNext_eq, accWrite_eq,
    show accRead s .full = s.acc from rfl]
  rfl

theorem exec_z : exec (.z sp n m) s = .next { s with running := false, ip := s.ip + 1 } := rfl

/-- The two ways an order with one memory access ends. -/
theorem next_of_access {b : Bool} {n : BitVec 10} {m : Mode} {r s t : State}
    (h : (if b = true then Host.Outcome.next r else badAccess n m s) = .next t) :
    (b = true ∧ t = r) ∨
    (¬ b = true ∧ t = { s with fault := some (.invalidAddress (n.toNat : Rat) m) }) := by
  cases b
  · exact .inr ⟨by simp, (Host.Outcome.next.inj h).symm⟩
  · exact .inl ⟨rfl, (Host.Outcome.next.inj h).symm⟩

/-- Every order answers a next state: none faults the run and none is refused (log entry 1). -/
theorem exec_isNext (i : Instr) (s : State) : ∃ t, exec i s = .next t := by
  have access : ∀ (b : Bool) (n : BitVec 10) (m : Mode) (r s : State),
      ∃ t, (if b = true then Host.Outcome.next r else badAccess n m s) = .next t := by
    intro b n m r s; cases b
    · exact ⟨_, rfl⟩
    · exact ⟨_, rfl⟩
  cases i
  case a => rw [exec_a]; exact access _ _ _ _ _
  case s => rw [exec_s]; exact access _ _ _ _ _
  case h => rw [exec_h]; exact access _ _ _ _ _
  case v => rw [exec_v]; exact access _ _ _ _ _
  case n => rw [exec_n]; exact access _ _ _ _ _
  case u => rw [exec_u]; exact access _ _ _ _ _
  case t => rw [exec_t]; exact access _ _ _ _ _
  case c => rw [exec_c]; exact access _ _ _ _ _
  case r => rw [exec_r]; split <;> exact ⟨_, rfl⟩
  case l => rw [exec_l]; split <;> exact ⟨_, rfl⟩
  case e => exact ⟨_, exec_e _ _ _ _⟩
  case g => exact ⟨_, exec_g _ _ _ _⟩
  case i =>
    cases ht : s.tape with
    | nil => exact ⟨_, exec_i_of_nil _ _ _ _ ht⟩
    | cons c rest => rw [exec_i_of_cons _ _ _ _ ht]; exact access _ _ _ _ _
  case o => rw [exec_o]; exact access _ _ _ _ _
  case f => rw [exec_f]; exact access _ _ _ _ _
  case x => exact ⟨_, exec_x _ _ _ _⟩
  case y => exact ⟨_, exec_y _ _ _ _⟩
  case z => exact ⟨_, exec_z _ _ _ _⟩

end Sys2Proof.Machine
end

