-- ==== Sys2Proof/Laws/PerInstr.lean ====
section
/-! SUPPORT. Statements about orders as syntax, one lemma per constructor of `Instr`. -/

namespace Sys2Proof.Laws

/-- What the word of an order holds in each of its fields (30_encoding.md R55, R56). -/
def WordFields.Statement (i : Instr) : Prop :=
  opField (encode i) = letterCode i.letter ∧ spareField (encode i) = i.spare ∧
    addressField (encode i) = i.address ∧ modeField (encode i) = i.mode

/-- The fields of a built word, for every order at once. -/
theorem wordFields_of_orderWord (i : Instr) : WordFields.Statement i :=
  ⟨opField_orderWord _ _ _ _, spareField_orderWord _ _ _ _, addressField_orderWord _ _ _ _,
    modeField_orderWord _ _ _ _⟩

theorem WordFields.a (sp : Bool) (n : BitVec 10) (m : Mode) : WordFields.Statement (.a sp n m) :=
  wordFields_of_orderWord _

theorem WordFields.s (sp : Bool) (n : BitVec 10) (m : Mode) : WordFields.Statement (.s sp n m) :=
  wordFields_of_orderWord _

theorem WordFields.h (sp : Bool) (n : BitVec 10) (m : Mode) : WordFields.Statement (.h sp n m) :=
  wordFields_of_orderWord _

theorem WordFields.v (sp : Bool) (n : BitVec 10) (m : Mode) : WordFields.Statement (.v sp n m) :=
  wordFields_of_orderWord _

theorem WordFields.n (sp : Bool) (n : BitVec 10) (m : Mode) : WordFields.Statement (.n sp n m) :=
  wordFields_of_orderWord _

theorem WordFields.u (sp : Bool) (n : BitVec 10) (m : Mode) : WordFields.Statement (.u sp n m) :=
  wordFields_of_orderWord _

theorem WordFields.t (sp : Bool) (n : BitVec 10) (m : Mode) : WordFields.Statement (.t sp n m) :=
  wordFields_of_orderWord _

theorem WordFields.c (sp : Bool) (n : BitVec 10) (m : Mode) : WordFields.Statement (.c sp n m) :=
  wordFields_of_orderWord _

theorem WordFields.r (sp : Bool) (n : BitVec 10) (m : Mode) : WordFields.Statement (.r sp n m) :=
  wordFields_of_orderWord _

theorem WordFields.l (sp : Bool) (n : BitVec 10) (m : Mode) : WordFields.Statement (.l sp n m) :=
  wordFields_of_orderWord _

theorem WordFields.e (sp : Bool) (n : BitVec 10) (m : Mode) : WordFields.Statement (.e sp n m) :=
  wordFields_of_orderWord _

theorem WordFields.g (sp : Bool) (n : BitVec 10) (m : Mode) : WordFields.Statement (.g sp n m) :=
  wordFields_of_orderWord _

theorem WordFields.i (sp : Bool) (n : BitVec 10) (m : Mode) : WordFields.Statement (.i sp n m) :=
  wordFields_of_orderWord _

theorem WordFields.o (sp : Bool) (n : BitVec 10) (m : Mode) : WordFields.Statement (.o sp n m) :=
  wordFields_of_orderWord _

theorem WordFields.f (sp : Bool) (n : BitVec 10) (m : Mode) : WordFields.Statement (.f sp n m) :=
  wordFields_of_orderWord _

theorem WordFields.x (sp : Bool) (n : BitVec 10) (m : Mode) : WordFields.Statement (.x sp n m) :=
  wordFields_of_orderWord _

theorem WordFields.y (sp : Bool) (n : BitVec 10) (m : Mode) : WordFields.Statement (.y sp n m) :=
  wordFields_of_orderWord _

theorem WordFields.z (sp : Bool) (n : BitVec 10) (m : Mode) : WordFields.Statement (.z sp n m) :=
  wordFields_of_orderWord _

end Sys2Proof.Laws
end

