-- ==== Sys2Proof/Laws/Registers.lean ====
section
/-! SUPPORT. The views of the accumulator and the multiplier as numbers (10_state.md R17 to R23). -/

namespace Sys2Proof.Machine

/-- A value in the high bits over k kept low bits, as a number. -/
theorem toNat_append_low {w v k : Nat} (x : BitVec w) (y : BitVec v) :
    (x ++ y.extractLsb' 0 k).toNat = x.toNat * 2 ^ k + y.toNat % 2 ^ k := by
  rw [BitVec.toNat_append, ← Nat.shiftLeft_add_eq_or_of_lt (BitVec.isLt _), Nat.shiftLeft_eq]
  simp [BitVec.extractLsb'_toNat]

/-- The high bits of a value, as a number. -/
theorem toNat_extract_high {v k w : Nat} (y : BitVec v) (h : k + w = v) :
    (y.extractLsb' k w).toNat = y.toNat / 2 ^ k := by
  subst h
  rw [BitVec.extractLsb'_toNat, Nat.shiftRight_eq_div_pow]
  refine Nat.mod_eq_of_lt (Nat.div_lt_of_lt_mul ?_)
  rw [← Nat.pow_add]; exact y.isLt

/-- R19: a view read back as a number: the high-order bits of the accumulator. -/
theorem accRead_toNat (s : State) (v : AccView) :
    (accRead s v).toNat = s.acc.toNat / 2 ^ (71 - v.width) := by
  cases v
  · exact toNat_extract_high s.acc rfl
  · exact toNat_extract_high s.acc rfl
  · exact (Nat.div_one _).symm

/-- R20: a view written, as a number: the new high-order bits over the kept low ones. -/
theorem accWrite_acc_toNat (s : State) (v : AccView) (x : BitVec v.width) :
    (accWrite s v x).acc.toNat =
      x.toNat * 2 ^ (71 - v.width) + s.acc.toNat % 2 ^ (71 - v.width) := by
  cases v
  · exact toNat_append_low x s.acc
  · exact toNat_append_low x s.acc
  · simp [accWrite, Nat.mod_one]

/-- A read after a write of one view. -/
@[simp] theorem accRead_accWrite (s : State) (v : AccView) (x : BitVec v.width) :
    accRead (accWrite s v x) v = x := by
  refine BitVec.eq_of_toNat_eq ?_
  rw [accRead_toNat, accWrite_acc_toNat, Nat.mul_comm,
    Nat.mul_add_div (Nat.two_pow_pos _), Nat.div_eq_of_lt (Nat.mod_lt _ (Nat.two_pow_pos _)), Nat.add_zero]

/-- The bits below a written view are kept. -/
theorem accWrite_low (s : State) (v : AccView) (x : BitVec v.width) :
    (accWrite s v x).acc.toNat % 2 ^ (71 - v.width) = s.acc.toNat % 2 ^ (71 - v.width) := by
  rw [accWrite_acc_toNat, Nat.mul_comm, Nat.mul_add_mod, Nat.mod_mod]

/-- R22: a multiplier view as a number. -/
theorem mrRead_toNat (s : State) (m : Mode) :
    (mrRead s m).toNat = s.mr.toNat / 2 ^ (35 - m.width) := by
  cases m
  · exact toNat_extract_high s.mr rfl
  · exact (Nat.div_one _).symm

/-- R23: a multiplier view written, as a number. -/
theorem mrWrite_mr_toNat (s : State) (m : Mode) (x : BitVec m.width) :
    (mrWrite s m x).mr.toNat = x.toNat * 2 ^ (35 - m.width) + s.mr.toNat % 2 ^ (35 - m.width) := by
  cases m
  · exact toNat_append_low x s.mr
  · simp [mrWrite, Nat.mod_one]

/-- A read after a write of one multiplier view. -/
@[simp] theorem mrRead_mrWrite (s : State) (m : Mode) (x : BitVec m.width) :
    mrRead (mrWrite s m x) m = x := by
  refine BitVec.eq_of_toNat_eq ?_
  rw [mrRead_toNat, mrWrite_mr_toNat, Nat.mul_comm,
    Nat.mul_add_div (Nat.two_pow_pos _), Nat.div_eq_of_lt (Nat.mod_lt _ (Nat.two_pow_pos _)), Nat.add_zero]

end Sys2Proof.Machine
end

