-- ==== Sys2Proof/Laws/Step.lean ====
section
/-! SUPPORT. What one step can do (40_cycle.md R73, R74), said once. -/

namespace Sys2Proof.Machine

theorem enabled_iff (s : State) : enabled s = true ↔ s.running = true ∧ s.fault = none := by
  simp [enabled]

/-- The fetch in range is the decoding of the half-word at ip. -/
theorem fetchOrder_of_lt {s : State} (h : s.ip < 1024) :
    fetchOrder s = match decode (s.mem.half s.ip) with
      | .ok i => .ok i
      | .error _ => .error (malformed (s.mem.half s.ip)) := by
  rw [fetchOrder, memRead_of_valid ((validAccess_short _).2 h)]
  show (match decode (s.mem.half s.ip) with | .ok i => _ | .error (.selectsNoOrder w') => _) = _
  cases hd : decode (s.mem.half s.ip) with
  | ok i => rfl
  | error e => rw [decode_eq_error hd]

/-- The fetch out of range raises. -/
theorem fetchOrder_of_ge {s : State} (h : 1024 ≤ s.ip) :
    fetchOrder s = .error (.invalidAddress (s.ip : Rat) .short) := by
  rw [fetchOrder, memRead_of_not_valid (by rw [validAccess_short]; omega)]

theorem step_of_not_enabled {s : State} (h : ¬ enabled s = true) : step s = .next s := if_neg h

theorem step_of_enabled {s : State} (h : enabled s = true) :
    step s = orRaise s (fetchOrder s) fun i => exec i s := if_pos h

/-- A step runs the order at ip. -/
theorem step_of_decode {s : State} {i : Instr} (he : enabled s = true) (h : s.ip < 1024)
    (hd : decode (s.mem.half s.ip) = .ok i) : step s = exec i s := by
  rw [step_of_enabled he, fetchOrder_of_lt h, hd]
  rfl

/-- The order a state is about to run. -/
theorem currentOrder_eq_some {s : State} {i : Instr} :
    currentOrder s = some i ↔
      enabled s = true ∧ s.ip < 1024 ∧ decode (s.mem.half s.ip) = .ok i := by
  unfold currentOrder
  by_cases he : enabled s = true
  · rw [if_pos he]
    by_cases h : s.ip < 1024
    · rw [fetchOrder_of_lt h]
      cases decode (s.mem.half s.ip) <;> simp [Except.toOption, he, h]
    · rw [fetchOrder_of_ge (by omega)]
      simp [Except.toOption, h]
  · simp [he]

/-- What a step can do: nothing, when the core is stuck; record the fetch's error or the malformed word; or run
the order at ip. -/
theorem step_cases {s t : State} (h : step s = .next t) :
    (¬ enabled s = true ∧ t = s) ∨
    (enabled s = true ∧ 1024 ≤ s.ip ∧
      t = { s with fault := some (.invalidAddress (s.ip : Rat) .short) }) ∨
    (enabled s = true ∧ s.ip < 1024 ∧
      decode (s.mem.half s.ip) = .error (.selectsNoOrder (s.mem.half s.ip)) ∧
      t = { s with fault := some (malformed (s.mem.half s.ip)) }) ∨
    ∃ i, currentOrder s = some i ∧ exec i s = .next t := by
  by_cases he : enabled s = true
  · refine .inr ?_
    by_cases hip : s.ip < 1024
    · cases hd : decode (s.mem.half s.ip) with
      | ok i =>
        exact .inr (.inr ⟨i, currentOrder_eq_some.2 ⟨he, hip, hd⟩, (step_of_decode he hip hd) ▸ h⟩)
      | error e =>
        rw [step_of_enabled he, fetchOrder_of_lt hip, hd] at h
        refine .inr (.inl ⟨he, hip, by rw [decode_eq_error hd], ?_⟩)
        exact (Host.Outcome.next.inj h).symm
    · rw [step_of_enabled he, fetchOrder_of_ge (by omega)] at h
      exact .inl ⟨he, by omega, (Host.Outcome.next.inj h).symm⟩
  · rw [step_of_not_enabled he] at h
    exact .inl ⟨he, (Host.Outcome.next.inj h).symm⟩

/-- The word placed by `withFetchWord` is the one the very next step fetches and runs (log entry 14). -/
theorem step_placeWord {s : State} {w : HalfWord} {i : Instr} (hd : decode w = .ok i) :
    step (placeWord s w) = exec i (placeWord s w) := by
  refine step_of_decode rfl ?_ ?_
  · unfold placeWord
    dsimp only
    split
    · assumption
    · exact (by decide : Config.resetIp < 1024)
  · unfold placeWord
    dsimp only
    rw [Memory.half_store_short, if_pos rfl, hd]

end Sys2Proof.Machine
end

