-- ==== Sys2Proof/Tests/Slice0.lean ====
section
/-! SUPPORT. The model's own tests. Expected values are the spec's: its encodings (30_encoding.md R55, R57,
R72), its vectors (95_test_vectors.md, named in each comment) and its examples. Then one witness for the
hypotheses of every statement that has any, at the boundary of each clause's range. -/

open Sys2Proof Sys2Proof.Machine Sys2Proof.Claims

namespace Sys2Proof.Tests

/-- The next state an answer holds, none for a fault or a refusal. -/
def next? : Host.Outcome State Fault Refusal → Option State
  | .next t => some t
  | .fault _ => none
  | .refused _ => none

/-- The state of 95_test_vectors.md section 2.4: reset, the word at half(31), ip = 31. -/
def at31 (w : HalfWord) : State := placeWord { State.reset with ip := 31 } w

/-- A half-word placed by the host. -/
def withHalf (a : Nat) (w : HalfWord) (s : State) : State := { s with mem := s.mem.store a .short w }

/-- A cell placed by the host. -/
def withCell (k : Nat) (w : FullWord) (s : State) : State := { s with mem := s.mem.setCell k w }

/-! ## Decoding: one word per order, written out as op, spare, address, mode (R55, R57) -/

theorem test_decode_a : decode 0b11100_0_0000101000_1#17 = .ok (.a false 40 .long) := by decide
theorem test_decode_s : decode 0b01100_0_0000101001_0#17 = .ok (.s false 41 .short) := by decide
theorem test_decode_h : decode 0b10101_0_0000110010_1#17 = .ok (.h false 50 .long) := by decide
theorem test_decode_v : decode 0b11111_0_1111111111_1#17 = .ok (.v false 1023 .long) := by decide
theorem test_decode_n : decode 0b10110_0_0000110011_0#17 = .ok (.n false 51 .short) := by decide
theorem test_decode_u : decode 0b00111_0_0000101010_0#17 = .ok (.u false 42 .short) := by decide
theorem test_decode_t : decode 0b00101_1_0000000000_0#17 = .ok (.t true 0 .short) := by decide
theorem test_decode_c : decode 0b11110_0_0000111100_0#17 = .ok (.c false 60 .short) := by decide
theorem test_decode_r : decode 0b00100_1_0000000000_0#17 = .ok (.r true 0 .short) := by decide
theorem test_decode_l : decode 0b11001_0_1000000000_0#17 = .ok (.l false 512 .short) := by decide
theorem test_decode_e : decode 0b00011_0_0000011111_0#17 = .ok (.e false 31 .short) := by decide
theorem test_decode_g : decode 0b11011_0_0000101000_0#17 = .ok (.g false 40 .short) := by decide
theorem test_decode_i : decode 0b01000_0_0000111100_1#17 = .ok (.i false 60 .long) := by decide
theorem test_decode_o : decode 0b01001_0_0000111100_0#17 = .ok (.o false 60 .short) := by decide
theorem test_decode_f : decode 0b10001_0_0000111110_1#17 = .ok (.f false 62 .long) := by decide
theorem test_decode_x : decode 0b11010_0_0000000000_0#17 = .ok (.x false 0 .short) := by decide
theorem test_decode_y : decode 0b00110_0_0000000000_0#17 = .ok (.y false 0 .short) := by decide
theorem test_decode_z : decode 0b01101_0_1000000000_1#17 = .ok (.z false 512 .long) := by decide

/-- E09, E11 and V63: P, B and a code without a letter select no order. -/
theorem test_decode_rejects : decode 0x0000A = .error (.selectsNoOrder 0x0000A) ∧
    decode 0x1D7FF = .error (.selectsNoOrder 0x1D7FF) ∧
    decode 0x0B000 = .error (.selectsNoOrder 0x0B000) := by decide

/-- E12 and E10, encoded. -/
theorem test_encode : encode (.u false 42 .short) = 0x07054 ∧ encode (.r true 0 .short) = 0x04800 := by
  decide

/-- The opcode table's numbering on a row's own bits. -/
theorem test_decodeTableWord : decodeTableWord 24 0x0D000 = some (.z false 0 .short) ∧
    decodeTableWord 17 0x0000A = none := by decide

/-! ## Well-formedness: the one check, on each of its two orders -/

theorem test_illFormed_r : ¬ (Instr.r false 0 .short).WellFormed := by decide
theorem test_illFormed_l : ¬ (Instr.l false 0 .short).WellFormed := by decide
theorem test_wellFormed : (Instr.r true 0 .short).WellFormed ∧ (Instr.l false 0 .long).WellFormed ∧
    (Instr.a false 41 .long).WellFormed := by decide

/-! ## One step of each order -/

/-- V03: overflow to negative, no flag. -/
theorem test_a_overflow :
    (next? (step (withHalf 40 1 { at31 0x1C050 with acc := 0x3FFFC0000000000000 }))).map (·.acc) =
      some 0x400000000000000000 := by decide
/-- V06: an odd long address. -/
theorem test_a_odd : (next? (step (at31 0x1C053))).map (fun t => (t.fault, t.ip)) =
    some (some (.invalidAddress 41 .long), 31) := by decide
/-- V08: long subtraction to -1 in view 1. -/
theorem test_s_long :
    (next? (step (withCell 20 2 { at31 0x0C051 with acc := 0x000000001000000000 }))).map (·.acc) =
      some 0x7FFFFFFFF000000000 := by decide
/-- V09: only MR[34:18] is written. -/
theorem test_h_short :
    (next? (step (withHalf 50 0x08000 { at31 0x15064 with mr := 0x00003FFFF }))).map (·.mr) =
      some 0x20003FFFF := by decide
/-- V13: -1.0 times -1.0 wraps to -1.0. -/
theorem test_v_wrap :
    (next? (step (withHalf 51 0x10000 { at31 0x1F066 with mr := 0x400000000 }))).map (·.acc) =
      some 0x400000000000000000 := by decide
/-- V12: (-1)(-1) = 1, times 4. -/
theorem test_v_signed :
    (next? (step (withHalf 51 0x1FFFF { at31 0x1F066 with mr := 0x7FFFC0000 }))).map (·.acc) =
      some 0x000000004000000000 := by decide
/-- V16: N gives -0.25. -/
theorem test_n_short :
    (next? (step (withHalf 51 0x08000 { at31 0x16066 with mr := 0x200000000 }))).map (·.acc) =
      some 0x700000000000000000 := by decide
/-- V22: the even half and bit 17 are kept. -/
theorem test_u_odd :
    (next? (step (withHalf 42 0x1FFFF { at31 0x07056 with acc := 0x000300000000000123 }))).map
      (fun t => (t.mem.cell 21, t.acc)) = some (0x00031FFFF, 0x000300000000000123) := by decide
/-- V19: all 71 bits cleared. -/
theorem test_t_clears :
    (next? (step { at31 0x05054 with acc := 0x000300000000000123 })).map
      (fun t => (t.mem.cell 21, t.acc)) = some (0x00000000C, 0) := by decide
/-- V21: the raise comes before the clear. -/
theorem test_t_odd :
    (next? (step { at31 0x05057 with acc := 0x000300000000000123 })).map (fun t => (t.acc, t.fault)) =
      some (0x000300000000000123, some (.invalidAddress 43 .long)) := by decide
/-- V23: AND, then added. -/
theorem test_c_short :
    (next? (step (withHalf 60 0x0FF0F
      { at31 0x1E078 with acc := 0x000040000000000000, mr := 0x03FFC0000 }))).map (·.acc) =
      some 0x03C400000000000000 := by decide
/-- V30: the spare bit alone, count 12. -/
theorem test_r_spare : (next? (step { at31 0x04800 with acc := 0x400000000000000000 })).map (·.acc) =
    some 0x7FFC00000000000000 := by decide
/-- V31: an empty count field. -/
theorem test_r_malformed : (next? (step (at31 0x04000))).map (·.fault) =
    some (some (.malformedOrder 0x04000 (some ['R', '0', 'S']))) := by decide
/-- V32: the top bit is lost. -/
theorem test_l_top : (next? (step { at31 0x19001 with acc := 0x600000000000000001 })).map (·.acc) =
    some 0x400000000000000002 := by decide
/-- V35: the lowest set bit decides. -/
theorem test_l_lowest : (next? (step { at31 0x19006 with acc := 1 })).map (·.acc) = some 4 := by decide
/-- V37, V38: zero jumps, negative falls through. -/
theorem test_e : (next? (step (at31 0x03050))).map (·.ip) = some 40 ∧
    (next? (step { at31 0x03050 with acc := 0x7FFFC0000000000000 })).map (·.ip) = some 32 := by decide
/-- V39, V40: negative jumps, zero falls through. -/
theorem test_g : (next? (step { at31 0x1B050 with acc := 0x400000000000000000 })).map (·.ip) = some 40 ∧
    (next? (step (at31 0x1B050))).map (·.ip) = some 32 := by decide
/-- V43: the code at bits 22..18 of the cell. -/
theorem test_i_long : (next? (step { at31 0x08079 with tape := [17] })).map
    (fun t => (t.mem.cell 30, t.tape)) = some (0x000440000, []) := by decide
/-- V45: the code is consumed, then the write fails. -/
theorem test_i_odd : (next? (step { at31 0x0807B with tape := [5] })).map
    (fun t => (t.tape, t.fault, t.ip)) = some ([], some (.invalidAddress 61 .long), 31) := by decide
/-- V48: bits 34..30. -/
theorem test_o_long : (next? (step (withCell 30 0x7C0000000 (at31 0x09079)))).map
    (fun t => (t.out, t.lastOut)) = some ([31], 31) := by decide
/-- V50: the whole word is replaced. -/
theorem test_f_replaces : (next? (step (withHalf 61 0x1FFFF { at31 0x1107A with lastOut := 17 }))).map
    (·.mem.cell 30) = some 0x440000000 := by decide
/-- V54: nothing but ip. -/
theorem test_x : next? (step { at31 0x1A000 with acc := 0x123 }) =
    some { at31 0x1A000 with acc := 0x123, ip := 32 } := by decide
/-- V58: the carry out of bit 70 is lost. -/
theorem test_y_wrap : (next? (step { at31 0x06000 with acc := 0x7FFFFFFFFFFFFFFFFF })).map (·.acc) =
    some 0x0000000007FFFFFFFF := by decide
/-- V60: the fields are ignored. -/
theorem test_z : (next? (step (at31 0x0D401))).map (fun t => (t.running, t.ip)) =
    some (false, 32) := by decide

/-! ## The cycle, the host and the Loader -/

/-- Y03: the fetch at 1024. -/
theorem test_fetch_1024 : (next? (step { State.reset with ip := 1024 })).map (fun t => (t.fault, t.ip)) =
    some (some (.invalidAddress 1024 .short), 1024) := by decide
/-- Y04, W5: a stray step after a halt changes nothing. -/
theorem test_halted : next? (step { State.reset with running := false, ip := 35 }) =
    some { State.reset with running := false, ip := 35 } := by decide
/-- V61: code 0 is no order. -/
theorem test_zero_word : (next? (step (State.reset.withFetchWord 24 0))).map (·.fault) =
    some (some (.malformedOrder 0 (some ['P', '0', 'S']))) := by decide
/-- The word placed by `withFetchWord` is the one the next step runs. -/
theorem test_withFetchWord : (next? (step (State.reset.withFetchWord 24 0x0D000))).map
    (fun t => (t.running, t.ip)) = some (false, 1) := by decide
/-- R65: the printable forms of the spec's examples. -/
theorem test_printable : printableForm 0x1C00A = some ['A', '5', 'S'] ∧
    printableForm 0x0D401 = some ['Z', '5', '1', '2', 'L'] ∧ printableForm 0x0B000 = none := by decide
/-- E13, E14, E15: over 1023 refused, no mode character refused, no digits mean 0. -/
theorem test_readOrder : readOrder ['A', '1', '0', '2', '4', 'S'] = none ∧ readOrder ['A'] = none ∧
    readOrder ['A', 'S'] = some (0x1C000, []) := by decide
/-- M12 and M14: view 0 of the accumulator. -/
theorem test_accWrite : (accWrite State.reset .upper17 0x1ABCD).acc = 0x6AF340000000000000 ∧
    (accWrite { State.reset with acc := 0x7FFFFFFFFFFFFFFFFF } .upper17 0).acc =
      0x00003FFFFFFFFFFFFF := by decide
/-- M04 and M06: the halves and bit 17 of a cell. -/
theorem test_memory : ((withHalf 41 0x15555 (withHalf 40 0x1FFFF State.reset)).mem.load 40 .long) =
      0x55555FFFF ∧
    (withHalf 40 0 (withCell 20 0x7FFFFFFFF State.reset)).mem.cell 20 = 0x7FFFE0000 := by decide

/-! ## Witnesses: every statement with hypotheses has an input that meets them -/

/-- StepRunsDecodedOrder: its three clauses, ip at 1024, at 1023 with an order, at 0 with a word of no order. -/
theorem witness_stepRuns :
    (enabled { State.reset with ip := 1024 } = true) ∧
    (∃ i, enabled (placeWord { State.reset with ip := 1023 } 0x1A000) = true ∧
      (placeWord { State.reset with ip := 1023 } 0x1A000).ip = 1023 ∧
      decode ((placeWord { State.reset with ip := 1023 } 0x1A000).mem.half 1023) = .ok i) ∧
    (∃ e, enabled State.reset = true ∧ decode (State.reset.mem.half 0) = .error e) :=
  ⟨by decide, ⟨.x false 0 .short, by decide⟩, ⟨.selectsNoOrder 0, by decide⟩⟩

/-- StuckCoreNeverChanges: a halted and a faulted state. -/
theorem witness_stuck : ({ State.reset with running := false } : State).running = false ∧
    ({ State.reset with fault := some .tapeExhausted } : State).fault ≠ none := by decide

/-- CommitIsTheOnlyWriteOfIp, FailureKeepsAllButTheConsumedCode, HostErrorsNeverAriseInAStep and the general
clauses: an enabled state with a step that fails and one with a step that does not. -/
theorem witness_step_ends :
    (∃ t, enabled (at31 0x1C053) = true ∧ step (at31 0x1C053) = .next t ∧ t.fault ≠ none) ∧
    (∃ t, enabled (at31 0x03050) = true ∧ step (at31 0x03050) = .next t ∧ t.fault = none) :=
  ⟨⟨{ at31 0x1C053 with fault := some (.invalidAddress 41 .long) }, by decide, by rfl, by decide⟩,
    ⟨{ at31 0x03050 with ip := 40 }, by decide, by rfl, by decide⟩⟩

/-- FailureKeepsAllButTheConsumedCode: the failing step that has consumed a code. -/
theorem witness_failure_consumes : ∃ t e, enabled { at31 0x0807B with tape := [5] } = true ∧
    step { at31 0x0807B with tape := [5] } = .next t ∧ t.fault = some e ∧ t.tape = [] :=
  ⟨{ at31 0x0807B with fault := some (.invalidAddress 61 .long) }, _, by decide, by rfl, rfl, rfl⟩

/-- AdvanceDoesNotWrap: an X at 1023. -/
theorem witness_advance : enabled (placeWord { State.reset with ip := 1023 } 0x1A000) = true ∧
    (placeWord { State.reset with ip := 1023 } 0x1A000).ip = 1023 ∧
    decode ((placeWord { State.reset with ip := 1023 } 0x1A000).mem.half 1023) =
      .ok (.x false 0 .short) := by decide

/-- StepKeepsInvariant: a state with listed memory and a step that stores. -/
theorem witness_invariant : ∃ t, StateInv { at31 0x05054 with acc := 0x000300000000000123 } ∧
    step { at31 0x05054 with acc := 0x000300000000000123 } = .next t :=
  ⟨_, ⟨by decide, by decide, trivial, by intro h; cases h⟩, by rfl⟩

/-- EncodeOfDecode and SpareBitIgnored: a word with every field set, and one with the spare bit set. -/
theorem witness_decodes : decode 0x1FFFF = .ok (.v true 1023 .long) ∧
    isShift (.v true 1023 .long) = false ∧ decode 0x05800 = .ok (.t true 0 .short) ∧
    isShift (.t true 0 .short) = false := by decide

/-- ReadAfterWriteReturnsValue, WriteChangesOnlyNamedBits: the last valid address of each mode, and the first
invalid ones. -/
theorem witness_access : validAccess 1023 .short = true ∧ validAccess 1022 .long = true ∧
    validAccess 0 .long = true ∧ validAccess 1024 .short = false ∧ validAccess 1023 .long = false := by
  decide

/-- HalvesAliasTheFullWord: the last cell. -/
theorem witness_cell : (511 : Nat) < 512 := by decide

/-- StoringTheHeldValueChangesNothing: listed memory, the last address. -/
theorem witness_held : (withHalf 1023 0x15555 State.reset).mem.wf = true ∧
    memRead (withHalf 1023 0x15555 State.reset) 1023 .short = .ok 0x15555 :=
  ⟨by decide, by rfl⟩

/-- The orders with a memory operand: reachable at the last address of each mode, unreachable at 1023 long and
at 1 long. -/
theorem witness_reachable : Reachable 1023 .short ∧ Reachable 1022 .long ∧ Reachable 0 .long ∧
    ¬ Reachable 1023 .long ∧ ¬ Reachable 1 .long := by unfold Reachable; decide

/-- ShiftRightOrder, ShiftLeftOrder: count fields at their ends, and the empty one. -/
theorem witness_count :
    (encode (.r true 0 .short)).toNat % 2 ^ 12 ≠ 0 ∧ (encode (.r false 0 .long)).toNat % 2 ^ 12 ≠ 0 ∧
    (encode (.r false 0 .short)).toNat % 2 ^ 12 = 0 ∧ (encode (.l true 0 .short)).toNat % 2 ^ 12 ≠ 0 ∧
    (encode (.l false 0 .long)).toNat % 2 ^ 12 ≠ 0 ∧ (encode (.l false 0 .short)).toNat % 2 ^ 12 = 0 := by
  decide

/-- JumpIfNonNegativeOrder, JumpIfNegativeOrder: zero, the greatest, -1 and the least accumulator. -/
theorem witness_sign : 0 ≤ (0 : AccWord).toInt ∧ 0 ≤ (0x3FFFFFFFFFFFFFFFFF : AccWord).toInt ∧
    (0x7FFFFFFFFFFFFFFFFF : AccWord).toInt < 0 ∧ (0x400000000000000000 : AccWord).toInt < 0 := by decide

/-- InputOrder: an empty tape, and a tape with one code. -/
theorem witness_tape : State.reset.tape = [] ∧
    ({ State.reset with tape := [31] } : State).tape = 31 :: [] := by decide

/-- LongOutputIsOddHalfOutput: the last even address. -/
theorem witness_even : (1022 : BitVec 10).toNat % 2 = 0 := by decide

/-- PairOfJumpsIsUnconditional: E 40, G 40 at 31 and 32, and the last place a pair fits. -/
theorem witness_pair :
    (enabled (withHalf 32 0x1B050 (at31 0x03050)) = true ∧
      decode ((withHalf 32 0x1B050 (at31 0x03050)).mem.half 31) = .ok (.e false 40 .short) ∧
      decode ((withHalf 32 0x1B050 (at31 0x03050)).mem.half 32) = .ok (.g false 40 .short)) ∧
    (enabled (withHalf 1023 0x1B050 (placeWord { State.reset with ip := 1022 } 0x03050)) = true ∧
      decode ((withHalf 1023 0x1B050 (placeWord { State.reset with ip := 1022 } 0x03050)).mem.half 1022) =
        .ok (.e false 40 .short) ∧
      decode ((withHalf 1023 0x1B050 (placeWord { State.reset with ip := 1022 } 0x03050)).mem.half 1023) =
        .ok (.g false 40 .short)) := by decide

/-- StoreIsSeenByNextFetch: vector Y08 with U, and the same with T. (Y08 writes the accumulator as
0x018000000000000000, whose view 0 is not the 0x06000 it gives beside it: log entry 15.) -/
theorem witness_store_seen :
    (enabled { at31 0x07040 with acc := 0x180000000000000000 } = true ∧
      decode ((at31 0x07040).mem.half 31) = .ok (.u false 32 .short) ∧
      decode (accRead { at31 0x07040 with acc := 0x180000000000000000 } .upper17) =
        .ok (.y false 0 .short)) ∧
    decode ((at31 0x05040).mem.half 31) = .ok (.t false 32 .short) := by decide

/-- SelfStoreRunsAsFetched: U 31 at 31. -/
theorem witness_self_store : enabled (at31 0x0703E) = true ∧ (at31 0x0703E).ip = 31 ∧
    decode ((at31 0x0703E).mem.half 31) = .ok (.u false 31 .short) := by decide

/-- OnlyStopClearsRunning: a Z that clears running, and a core that is not running. -/
theorem witness_stop : (∃ t, step (at31 0x0D000) = .next t ∧ t.running ≠ (at31 0x0D000).running ∧
      currentOrder (at31 0x0D000) = some (.z false 0 .short)) ∧
    ({ State.reset with running := false } : State).running = false :=
  ⟨⟨{ at31 0x0D000 with running := false, ip := 32 }, by rfl, by decide, by decide⟩, rfl⟩

/-- OnlyReinjectReadsLastOut: an O that writes lastOut and out, and an order that is no F. -/
theorem witness_lastOut : ∃ t, step (withHalf 60 0x11000 (at31 0x09078)) = .next t ∧
    t.lastOut ≠ (withHalf 60 0x11000 (at31 0x09078)).lastOut ∧
    t.out ≠ (withHalf 60 0x11000 (at31 0x09078)).out ∧
    ∀ sp n m, currentOrder (withHalf 60 0x11000 (at31 0x09078)) ≠ some (.f sp n m) := by
  refine ⟨{ withHalf 60 0x11000 (at31 0x09078) with out := [17], lastOut := 17, ip := 32 },
    by rfl, by decide, by decide, fun sp n m => ?_⟩
  rw [show currentOrder (withHalf 60 0x11000 (at31 0x09078)) = some (.o false 60 .short) by decide]
  simp

/-- StateIsWrittenOnlyByItsOrders: a step that changes each piece of state. -/
theorem witness_written :
    (∃ t, step (withHalf 40 5 (at31 0x1C050)) = .next t ∧ t.acc ≠ (withHalf 40 5 (at31 0x1C050)).acc) ∧
    (∃ t, step (withHalf 50 5 (at31 0x15064)) = .next t ∧ t.mr ≠ (withHalf 50 5 (at31 0x15064)).mr) ∧
    (∃ t, step { at31 0x08078 with tape := [17] } = .next t ∧ t.mem ≠ (at31 0x08078).mem ∧
      t.tape ≠ [17]) ∧
    (∃ t, step (at31 0x09078) = .next t ∧ t.out ≠ (at31 0x09078).out) :=
  ⟨⟨_, by rfl, by decide⟩, ⟨_, by rfl, by decide⟩, ⟨_, by rfl, by decide, by decide⟩,
    ⟨_, by rfl, by decide⟩⟩

/-- TapeExhaustedExactlyOnEmptyTape: an I on an empty tape. -/
theorem witness_exhausted : ∃ t, enabled (at31 0x08078) = true ∧ step (at31 0x08078) = .next t ∧
    t.fault = some .tapeExhausted :=
  ⟨_, by decide, by rfl, rfl⟩

/-- InvalidAddressArisesInTwoWays: the fetch at 1024, and A 41 L. -/
theorem witness_invalid :
    (∃ t, enabled { State.reset with ip := 1024 } = true ∧ step { State.reset with ip := 1024 } = .next t ∧
      t.fault = some (.invalidAddress 1024 .short)) ∧
    (∃ t, enabled (at31 0x1C053) = true ∧ (at31 0x1C053).ip ≤ 1024 ∧ step (at31 0x1C053) = .next t ∧
      t.fault = some (.invalidAddress 41 .long)) :=
  ⟨⟨{ State.reset with ip := 1024, fault := some (.invalidAddress 1024 .short) }, by decide, by rfl, rfl⟩,
    ⟨{ at31 0x1C053 with fault := some (.invalidAddress 41 .long) }, by decide, by decide, by rfl, rfl⟩⟩

/-- MalformedOrderExactlyOnIllegalWords: a word of no order, and the two empty shifts. -/
theorem witness_malformed :
    ((next? (step (at31 0x1D7FF))).bind (·.fault)) = some (malformed 0x1D7FF) ∧
    ((next? (step (at31 0x04000))).bind (·.fault)) = some (malformed 0x04000) ∧
    ((next? (step (at31 0x19000))).bind (·.fault)) = some (malformed 0x19000) ∧
    enabled (at31 0x1D7FF) = true ∧ enabled (at31 0x04000) = true ∧ enabled (at31 0x19000) = true := by
  decide

/-- HostWriteChecksAddressThenWidth: M09 (negative), a fraction, M11 (odd long, of the wrong width too), M10
(the wrong width) and the last valid address. -/
theorem witness_hostWrite :
    hostMemWrite (-1) .short 0#17 State.reset = .fault (.invalidAddress (-1) .short) ∧
    hostMemWrite (1 / 2) .short 0#17 State.reset = .fault (.invalidAddress (1 / 2) .short) ∧
    hostMemWrite 41 .long 0#17 State.reset = .fault (.invalidAddress 41 .long) ∧
    hostMemWrite 40 .short 0#35 State.reset = .fault (.widthMismatch 17 35) ∧
    (∃ z : Nat, (1023 : Rat) = (z : Rat) ∧ validAccess z .short = true) :=
  ⟨by rfl, by rw [hostMemWrite, if_neg (by norm_num [hostValid])], by rfl, by rfl, ⟨1023, by norm_num, by decide⟩⟩

/-- HostRegisterWriteChecksWidth: M17 and the multiplier's counterpart. -/
theorem witness_hostRegister : (17 : Nat) ≠ AccView.upper35.width ∧ (35 : Nat) ≠ Mode.short.width := by
  decide

/-- LoaderPlacesOrdersFromThirtyOne: the longest program. -/
theorem witness_loader : (List.replicate 993 (Letter.X, (0 : BitVec 10), Mode.short)).length ≤ 993 := by
  rw [List.length_replicate]

end Sys2Proof.Tests
end

section
/-! SUPPORT. What an order can do, said once: which pieces of state each order writes, how an order that
completes ends, and which errors an order can raise. Statements about a step follow from `exec_cases`. -/

namespace Sys2Proof

/-- An order is one its letter selects. -/
theorem exists_orderOfLetter {i : Instr} {l : Letter} (h : i.letter = l) :
    ∃ sp n m, orderOfLetter l sp n m = some i := ⟨_, _, _, h ▸ orderOfLetter_fields i⟩

/-- A word that decodes is the word of its order (R55, R56). -/
theorem encode_of_decode_eq_ok {w : HalfWord} {i : Instr} (h : decode w = .ok i) : encode i = w := by
  obtain ⟨hl, hsp, hn, hm⟩ := decode_eq_ok h
  rw [encode, hsp, hn, hm, orderWord_of_fields hl]

end Sys2Proof

namespace Sys2Proof.Machine

/-- What may differ from s to t when order i runs: each piece of state with the orders that write it, and the
form of what they write. A field left out when this is built stands for a piece that is the same in both. -/
structure Writes (i : Instr) (s t : State) : Prop where
  acc : t.acc = s.acc ∨ i.letter ∈ [.A, .S, .V, .N, .C, .R, .L, .Y, .T] := by exact .inl rfl
  mr : t.mr = s.mr ∨ i.letter = .H := by exact .inl rfl
  mem : t.mem = s.mem ∨ i.letter ∈ [.U, .T, .I, .F] ∧
    ∃ v, t.mem = s.mem.store i.address.toNat i.mode v := by exact .inl rfl
  tape : t.tape = s.tape ∨ i.letter = .I := by exact .inl rfl
  out : t.out = s.out ∧ t.lastOut = s.lastOut ∨ i.letter = .O ∧ t.out = s.out ++ [t.lastOut] := by
    exact .inl ⟨rfl, rfl⟩
  running : t.running = s.running ∨ i.letter = .Z ∧ t.running = false := by exact .inl rfl

/-- An order that completes records no error, and leaves ip + 1 or the address it names (R75). -/
structure Completes (i : Instr) (s t : State) : Prop extends Writes i s t where
  fault : t.fault = s.fault := by exact rfl
  ip : t.ip = s.ip + 1 ∨ t.ip = i.address.toNat := by exact .inl rfl

/-- The errors order i can raise in s, each with the state it is recorded in (R101, R103, R104, R109). -/
inductive Raises (i : Instr) (s : State) : Fault → State → Prop where
  | oddLong (access : accessesMemory i = true) (long : i.mode = .long) (odd : i.address.toNat % 2 = 1) :
      Raises i s (.invalidAddress (i.address.toNat : Rat) .long) s
  | oddLongInput {c : Code} {rest : List Code} (input : i.letter = .I) (cons : s.tape = c :: rest)
      (long : i.mode = .long) (odd : i.address.toNat % 2 = 1) :
      Raises i s (.invalidAddress (i.address.toNat : Rat) .long) { s with tape := rest }
  | emptyTape (input : i.letter = .I) (nil : s.tape = []) : Raises i s .tapeExhausted s
  | emptyCount (shift : isShift i = true) (count : countField (encode i) = 0) :
      Raises i s (malformed (encode i)) s

/-- The two ways order i ends in s: it completes, or it raises and the error is recorded (R75, R77). -/
inductive Ends (i : Instr) (s : State) : State → Prop where
  | completes {t : State} (h : Completes i s t) : Ends i s t
  | raises {e : Fault} {r : State} (h : Raises i s e r) : Ends i s { r with fault := some e }

/-- An order whose meaning is one memory access and a completed state r. -/
theorem ends_of_access {i : Instr} {s r t : State} (access : accessesMemory i = true)
    (hx : exec i s = if validAccess i.address.toNat i.mode = true then .next r
      else badAccess i.address i.mode s)
    (hr : Completes i s r) (h : exec i s = .next t) : Ends i s t := by
  obtain ⟨-, rfl⟩ | ⟨hv, rfl⟩ := next_of_access (hx ▸ h)
  · exact .completes hr
  · obtain ⟨long, odd⟩ := not_validAccess_field hv
    rw [long]
    exact .raises (.oddLong access long odd)

/-- A shift whose meaning is the accumulator f count, or the error of an empty count field. -/
theorem ends_of_shift {i : Instr} {s t : State} {f : Nat → AccWord} (shift : isShift i = true)
    (hx : exec i s = match shiftCount (encode i) with
      | some k => .next { s with acc := f k, ip := s.ip + 1 }
      | none => .next { s with fault := some (malformed (encode i)) })
    (hacc : i.letter ∈ [.A, .S, .V, .N, .C, .R, .L, .Y, .T]) (h : exec i s = .next t) :
    Ends i s t := by
  rw [hx] at h
  obtain ⟨hc, hk⟩ | ⟨-, k, -, -, -, hk⟩ := shiftCount_cases (encode i) <;> rw [hk] at h <;> cases h
  · exact .raises (.emptyCount shift hc)
  · exact .completes { acc := .inr hacc }

/-- How every order ends. -/
theorem exec_ends {i : Instr} {s t : State} (h : exec i s = .next t) : Ends i s t := by
  cases i
  case a => exact ends_of_access rfl (exec_a ..) { acc := .inr (by simp [Instr.letter]) } h
  case s => exact ends_of_access rfl (exec_s ..) { acc := .inr (by simp [Instr.letter]) } h
  case h => exact ends_of_access rfl (exec_h ..) { mr := .inr rfl } h
  case v => exact ends_of_access rfl (exec_v ..) { acc := .inr (by simp [Instr.letter]) } h
  case n => exact ends_of_access rfl (exec_n ..) { acc := .inr (by simp [Instr.letter]) } h
  case u => exact ends_of_access rfl (exec_u ..) { mem := .inr ⟨by simp [Instr.letter], _, rfl⟩ } h
  case t =>
    exact ends_of_access rfl (exec_t ..)
      { acc := .inr (by simp [Instr.letter]), mem := .inr ⟨by simp [Instr.letter], _, rfl⟩ } h
  case c => exact ends_of_access rfl (exec_c ..) { acc := .inr (by simp [Instr.letter]) } h
  case r => exact ends_of_shift rfl (exec_r ..) (by simp [Instr.letter]) h
  case l => exact ends_of_shift rfl (exec_l ..) (by simp [Instr.letter]) h
  case e =>
    cases (exec_e ..).symm.trans h
    exact .completes { ip := by dsimp only; split <;> simp [Instr.address] }
  case g =>
    cases (exec_g ..).symm.trans h
    exact .completes { ip := by dsimp only; split <;> simp [Instr.address] }
  case i =>
    cases ht : s.tape with
    | nil =>
      cases (exec_i_of_nil _ _ _ _ ht).symm.trans h
      exact .raises (.emptyTape rfl ht)
    | cons c rest =>
      obtain ⟨-, rfl⟩ | ⟨hv, rfl⟩ := next_of_access ((exec_i_of_cons _ _ _ _ ht).symm.trans h)
      · exact .completes { mem := .inr ⟨by simp [Instr.letter], _, rfl⟩, tape := .inr rfl }
      · obtain ⟨rfl, odd⟩ := not_validAccess_field hv
        exact .raises (.oddLongInput rfl ht rfl odd)
  case o => exact ends_of_access rfl (exec_o ..) { out := .inr ⟨rfl, rfl⟩ } h
  case f => exact ends_of_access rfl (exec_f ..) { mem := .inr ⟨by simp [Instr.letter], _, rfl⟩ } h
  case x =>
    cases (exec_x ..).symm.trans h
    exact .completes {}
  case y =>
    cases (exec_y ..).symm.trans h
    exact .completes { acc := .inr (by simp [Instr.letter]) }
  case z =>
    cases (exec_z ..).symm.trans h
    exact .completes { running := .inr ⟨rfl, rfl⟩ }

/-- A raise writes nothing but the record of the error, and the tape when I has consumed a code (R109). -/
theorem Raises.writes {i : Instr} {s r : State} {e : Fault} (h : Raises i s e r) :
    Writes i s { r with fault := some e } := by
  cases h with
  | oddLong => exact {}
  | oddLongInput input => exact { tape := .inr input }
  | emptyTape => exact {}
  | emptyCount => exact {}

theorem Ends.writes {i : Instr} {s t : State} (h : Ends i s t) : Writes i s t := by
  cases h with
  | completes hc => exact hc.toWrites
  | raises hr => exact hr.writes

/-- A raise keeps memory, ip and the run state (R77). -/
theorem Raises.keeps {i : Instr} {s r : State} {e : Fault} (h : Raises i s e r) :
    r.mem = s.mem ∧ r.ip = s.ip ∧ r.running = s.running := by
  cases h <;> exact ⟨rfl, rfl, rfl⟩

/-- What an order writes to memory keeps the canonical form. -/
theorem Writes.mem_wf {i : Instr} {s t : State} (h : Writes i s t) (hs : s.mem.wf = true) :
    t.mem.wf = true := by
  obtain hmem | ⟨-, v, hmem⟩ := h.mem <;> rw [hmem]
  · exact hs
  · exact Memory.wf_store v i.address.isLt hs

/-! ## The step -/

/-- The fetch at 1024 or above fails, whatever the rest of the state (R76). -/
theorem step_of_ip_ge {s : State} (he : enabled s = true) (h : 1024 ≤ s.ip) :
    step s = .next { s with fault := some (.invalidAddress (s.ip : Rat) .short) } := by
  rw [step_of_enabled he, fetchOrder_of_ge h, orRaise_error, raise_eq]

/-- A word that selects no order is recorded (R58, R104). -/
theorem step_of_decode_error {s : State} {e : DecodeError} (he : enabled s = true) (h : s.ip < 1024)
    (hd : decode (s.mem.half s.ip) = .error e) :
    step s = .next { s with fault := some (malformed (s.mem.half s.ip)) } := by
  rw [step_of_enabled he, fetchOrder_of_lt h, hd]
  rfl

theorem step_of_currentOrder {s : State} {i : Instr} (h : currentOrder s = some i) :
    step s = exec i s := by
  obtain ⟨he, hip, hd⟩ := currentOrder_eq_some.1 h
  exact step_of_decode he hip hd

/-- A step either runs the current order or changes nothing but the record of an error. -/
theorem step_ends {s t : State} (h : step s = .next t) :
    t = { s with fault := t.fault } ∨ ∃ i, currentOrder s = some i ∧ Ends i s t := by
  obtain ⟨-, rfl⟩ | ⟨-, -, rfl⟩ | ⟨-, -, -, rfl⟩ | ⟨i, hi, hx⟩ := step_cases h
  · exact .inl rfl
  · exact .inl rfl
  · exact .inl rfl
  · exact .inr ⟨i, hi, exec_ends hx⟩

/-- A piece of state that a step changes is one that the current order writes. -/
theorem step_writes_of_ne {α : Type} (f : State → α) (hf : ∀ (s : State) e, f { s with fault := e } = f s)
    {s t : State} (h : step s = .next t) (hne : f t ≠ f s) :
    ∃ i, currentOrder s = some i ∧ Writes i s t := by
  obtain ht | ⟨i, hi, hend⟩ := step_ends h
  · exact absurd (ht ▸ hf s t.fault) hne
  · exact ⟨i, hi, hend.writes⟩

/-- The current order by its letter. -/
theorem currentOrder_of_letter {s : State} {i : Instr} {l : Letter} (h : currentOrder s = some i)
    (hl : i.letter = l) : ∃ sp n m, currentOrder s = orderOfLetter l sp n m := by
  obtain ⟨sp, n, m, hi⟩ := exists_orderOfLetter hl
  exact ⟨sp, n, m, h.trans hi.symm⟩

end Sys2Proof.Machine
end

section
/-! PROOFS. The statements about what a step does to the state: the invariant, and which orders write which piece. -/

namespace Sys2Proof.Machine

/-! ## The invariant -/

theorem faultExplained_of_none {s : State} (h : s.fault = none) : FaultExplained s := by
  rw [FaultExplained, h]
  trivial

theorem haltExplained_of_running {s : State} (h : s.running = true) : HaltExplained s := by
  intro hr
  rw [h] at hr
  cases hr

/-- Every error an order raises is explained by the order at ip. -/
theorem Raises.faultExplained {i : Instr} {s r : State} {e : Fault} (h : Raises i s e r)
    (hip : s.ip < 1024) (hd : decode (s.mem.half s.ip) = .ok i) :
    FaultExplained { r with fault := some e } := by
  cases h with
  | oddLong access long odd => exact Or.inr ⟨hip, rfl, i, hd, access, long, odd, rfl⟩
  | oddLongInput input _ long odd =>
    have access : accessesMemory i = true := by
      obtain ⟨_, _, _, hi⟩ := exists_orderOfLetter input
      cases hi
      rfl
    exact Or.inr ⟨hip, rfl, i, hd, access, long, odd, rfl⟩
  | emptyTape input nil =>
    obtain ⟨sp, n, m, hi⟩ := exists_orderOfLetter input
    cases hi
    exact And.intro hip ⟨nil, sp, n, m, hd⟩
  | emptyCount shift count =>
    rw [encode_of_decode_eq_ok hd] at count ⊢
    exact And.intro hip ⟨rfl, rfl, .inr ⟨i, hd, shift, count⟩⟩

/-- An order run in an enabled state keeps the invariant. -/
theorem exec_keeps_stateInv {i : Instr} {s t : State} (hs : StateInv s) (hi : currentOrder s = some i)
    (hx : exec i s = .next t) : StateInv t := by
  obtain ⟨he, hip, hd⟩ := currentOrder_eq_some.1 hi
  obtain ⟨hrun, hfault⟩ := (enabled_iff s).1 he
  have hend := exec_ends hx
  have hwf := hend.writes.mem_wf hs.mem_wf
  cases hend with
  | completes hc =>
    have hnone : t.fault = none := hc.fault.trans hfault
    have hle : t.ip ≤ 1024 := by
      have := i.address.isLt
      obtain h | h := hc.ip <;> omega
    refine ⟨hwf, hle, faultExplained_of_none hnone, ?_⟩
    obtain hkeep | ⟨hz, -⟩ := hc.running
    · exact haltExplained_of_running (hkeep.trans hrun)
    · obtain ⟨_, _, _, hi⟩ := exists_orderOfLetter hz
      cases hi
      cases (exec_z ..).symm.trans hx
      exact fun _ => ⟨hnone, Nat.le_add_left 1 s.ip, _, _, _, hd⟩
  | raises hr =>
    obtain ⟨-, hip', hrun'⟩ := hr.keeps
    exact ⟨hwf, hip'.trans_le hs.ip_le, hr.faultExplained hip hd,
      haltExplained_of_running (hrun'.trans hrun)⟩

/-- Settles O8: a stuck core keeps its state, a failed fetch or dispatch records an error its ip and word
explain, and otherwise an order runs. -/
theorem stepKeepsInvariant : Obligations.StepKeepsInvariant := by
  intro s t hs h
  obtain ⟨-, rfl⟩ | ⟨he, hge, rfl⟩ | ⟨he, hlt, hd, rfl⟩ | ⟨i, hi, hx⟩ := step_cases h
  · exact hs
  · have hrun := ((enabled_iff s).1 he).1
    have hip : s.ip = 1024 := Nat.le_antisymm hs.ip_le hge
    refine ⟨hs.mem_wf, hs.ip_le, Or.inl ⟨hip, ?_, rfl⟩, haltExplained_of_running hrun⟩
    rw [hip]
    norm_num
  · have hrun := ((enabled_iff s).1 he).1
    exact ⟨hs.mem_wf, hs.ip_le, And.intro hlt ⟨rfl, rfl, .inl hd⟩, haltExplained_of_running hrun⟩
  · exact exec_keeps_stateInv hs hi hx

/-! ## Which orders write which piece of state -/

/-- Settles O45: a piece of state that differs was written by one of its orders. -/
theorem stateIsWrittenOnlyByItsOrders : Obligations.StateIsWrittenOnlyByItsOrders := by
  intro s t h
  refine ⟨fun hne => ?acc, fun hne => ?mr, fun hne => ?mem, fun hne => ?tape, fun hne => ?out⟩
  case acc =>
    obtain ⟨i, hi, hw⟩ := step_writes_of_ne State.acc (fun _ _ => rfl) h hne
    exact ⟨i, hi, hw.acc.resolve_left hne⟩
  case mr =>
    obtain ⟨i, hi, hw⟩ := step_writes_of_ne State.mr (fun _ _ => rfl) h hne
    exact ⟨i, hi, hw.mr.resolve_left hne⟩
  case mem =>
    obtain ⟨i, hi, hw⟩ := step_writes_of_ne State.mem (fun _ _ => rfl) h hne
    exact ⟨i, hi, (hw.mem.resolve_left hne).1⟩
  case tape =>
    obtain ⟨i, hi, hw⟩ := step_writes_of_ne State.tape (fun _ _ => rfl) h hne
    exact ⟨i, hi, hw.tape.resolve_left hne⟩
  case out =>
    obtain ⟨i, hi, hw⟩ := step_writes_of_ne State.out (fun _ _ => rfl) h hne
    exact ⟨i, hi, (hw.out.resolve_left fun hkeep => hne hkeep.1).1⟩

/-- Settles O43: of all orders only Z writes the run state, and it writes false. -/
theorem onlyStopClearsRunning : Obligations.OnlyStopClearsRunning := by
  refine ⟨fun s t h hne => ?_, fun s t sp n m hz h => ?_, resetAction_running, fun s hr => ?_⟩
  · obtain ⟨i, hi, hw⟩ := step_writes_of_ne State.running (fun _ _ => rfl) h hne
    obtain ⟨hz, hfalse⟩ := hw.running.resolve_left hne
    exact ⟨hfalse, currentOrder_of_letter hi hz⟩
  · rw [step_of_currentOrder hz, exec_z] at h
    cases h
    rfl
  · exact step_of_not_enabled (by simp [enabled, hr])

/-! ## lastOut is read by F alone -/

/-- An order with one memory access whose completed state does not read lastOut. -/
theorem access_lastOut {b : Bool} {n : BitVec 10} {m : Mode} {s r r' t : State} {c : Code}
    (hr : r' = { r with lastOut := r'.lastOut })
    (h : (if b = true then Host.Outcome.next r else badAccess n m s) = .next t) :
    ∃ d, (if b = true then Host.Outcome.next r' else badAccess n m { s with lastOut := c }) =
      .next { t with lastOut := d } := by
  obtain ⟨hb, rfl⟩ | ⟨hb, rfl⟩ := next_of_access h
  · exact ⟨r'.lastOut, by rw [if_pos hb, ← hr]⟩
  · exact ⟨c, if_neg hb⟩

/-- Every order but F answers the same up to lastOut, whatever lastOut it starts with. -/
theorem exec_lastOut {i : Instr} {s t : State} (c : Code) (hf : i.letter ≠ .F)
    (h : exec i s = .next t) :
    ∃ d, exec i { s with lastOut := c } = .next { t with lastOut := d } := by
  cases i
  case a sp n m => rw [exec_a] at h ⊢; exact access_lastOut (by cases m <;> rfl) h
  case s sp n m => rw [exec_s] at h ⊢; exact access_lastOut (by cases m <;> rfl) h
  case h sp n m => rw [exec_h] at h ⊢; exact access_lastOut (by cases m <;> rfl) h
  case v sp n m => rw [exec_v] at h ⊢; exact access_lastOut (by cases m <;> rfl) h
  case n sp n m => rw [exec_n] at h ⊢; exact access_lastOut (by cases m <;> rfl) h
  case u => rw [exec_u] at h ⊢; exact access_lastOut rfl h
  case t => rw [exec_t] at h ⊢; exact access_lastOut rfl h
  case c sp n m => rw [exec_c] at h ⊢; exact access_lastOut (by cases m <;> rfl) h
  case r => rw [exec_r] at h ⊢; split at h <;> cases h <;> exact ⟨c, rfl⟩
  case l => rw [exec_l] at h ⊢; split at h <;> cases h <;> exact ⟨c, rfl⟩
  case e => rw [exec_e] at h ⊢; cases h; exact ⟨c, rfl⟩
  case g => rw [exec_g] at h ⊢; cases h; exact ⟨c, rfl⟩
  case i sp n m =>
    by_cases ht : s.tape = []
    · cases (exec_i_of_nil _ _ _ _ ht).symm.trans h
      exact ⟨c, exec_i_of_nil sp n m { s with lastOut := c } ht⟩
    · obtain ⟨x, rest, ht⟩ := List.exists_cons_of_ne_nil ht
      rw [exec_i_of_cons _ _ _ _ ht] at h
      rw [exec_i_of_cons sp n m { s with lastOut := c } ht]
      exact access_lastOut rfl h
  case o => rw [exec_o] at h ⊢; exact access_lastOut rfl h
  case f => exact absurd rfl hf
  case x => rw [exec_x] at h ⊢; cases h; exact ⟨c, rfl⟩
  case y => rw [exec_y] at h ⊢; cases h; exact ⟨c, rfl⟩
  case z => rw [exec_z] at h ⊢; cases h; exact ⟨c, rfl⟩

/-- A step whose order is not F answers the same up to lastOut: neither the fetch nor the order reads it. -/
theorem step_lastOut {s t : State} (c : Code) (hf : ∀ sp n m, currentOrder s ≠ some (.f sp n m))
    (h : step s = .next t) :
    ∃ d, step { s with lastOut := c } = .next { t with lastOut := d } := by
  obtain ⟨he, rfl⟩ | ⟨he, hge, rfl⟩ | ⟨he, hlt, hd, rfl⟩ | ⟨i, hi, hx⟩ := step_cases h
  · exact ⟨c, step_of_not_enabled (s := { t with lastOut := c }) he⟩
  · exact ⟨c, step_of_ip_ge (s := { s with lastOut := c }) he hge⟩
  · exact ⟨c, step_of_decode_error (s := { s with lastOut := c }) he hlt hd⟩
  · have hi' : currentOrder { s with lastOut := c } = some i :=
      currentOrder_eq_some.2 (currentOrder_eq_some.1 hi)
    rw [step_of_currentOrder hi']
    refine exec_lastOut c (fun hl => ?_) hx
    obtain ⟨sp, n, m, hcur⟩ := currentOrder_of_letter hi hl
    exact hf sp n m hcur

/-- Settles O44: O writes lastOut together with the output, and no order but F reads it. -/
theorem onlyReinjectReadsLastOut : Obligations.OnlyReinjectReadsLastOut := by
  refine ⟨fun s t h hne => ?_, fun s t c hf h => step_lastOut c hf h, fun s t h hne => ?_,
    resetAction_lastOut⟩
  · obtain ⟨i, hi, hw⟩ := step_writes_of_ne State.lastOut (fun _ _ => rfl) h hne
    obtain ⟨ho, -⟩ := hw.out.resolve_left fun hkeep => hne hkeep.2
    exact currentOrder_of_letter hi ho
  · obtain ⟨i, -, hw⟩ := step_writes_of_ne State.out (fun _ _ => rfl) h hne
    exact (hw.out.resolve_left fun hkeep => hne hkeep.1).2

/-! ## Register views -/

/-- Settles O18: each read and each write of a view is taken as a number (`accRead_toNat`,
`accWrite_acc_toNat`), and the kept low bits lie below the bits the other view reads. -/
theorem accumulatorViewsShareBits : Obligations.AccumulatorViewsShareBits := by
  intro s
  refine ⟨fun v x => ⟨accRead_accWrite s v x, accWrite_eq s v x⟩, fun x => ⟨?_, ?_⟩,
    fun x => ⟨?_, ?_⟩, fun x => ?_⟩
  · exact accRead_toNat (accWrite s .full x) .upper35
  · exact accRead_toNat (accWrite s .full x) .upper17
  · rw [accRead_toNat, accWrite_acc_toNat]
    simp only [AccView.width]
    omega
  · exact accWrite_acc_toNat s .upper35 x
  · exact accWrite_acc_toNat s .upper17 x

/-- Settles O19: the short view is the high bits of MR, the long one MR itself. -/
theorem multiplierReadReturnsItsView : Obligations.MultiplierReadReturnsItsView :=
  fun s => ⟨mrRead_toNat s .short, (mrRead s .short).isLt, rfl⟩

theorem hostAccWrite_of_ne {v : AccView} {k : Nat} (x : BitVec k) (s : State) (h : k ≠ v.width) :
    hostAccWrite v x s = .fault (.widthMismatch v.width k) := dif_neg h

theorem hostAccWrite_of_width (v : AccView) (x : BitVec v.width) (s : State) :
    hostAccWrite v x s = .next (accWrite s v x) := dif_pos rfl

theorem hostMrWrite_of_ne {m : Mode} {k : Nat} (x : BitVec k) (s : State) (h : k ≠ m.width) :
    hostMrWrite m x s = .fault (.widthMismatch m.width k) := dif_neg h

theorem hostMrWrite_of_width (m : Mode) (x : BitVec m.width) (s : State) :
    hostMrWrite m x s = .next (mrWrite s m x) := dif_pos rfl

/-- Settles O52: the width check decides between the refusal and the write of the view. -/
theorem hostRegisterWriteChecksWidth : Obligations.HostRegisterWriteChecksWidth :=
  fun s => ⟨fun _ _ x h => hostAccWrite_of_ne x s h, fun v x => hostAccWrite_of_width v x s,
    fun _ _ x h => hostMrWrite_of_ne x s h, fun m x => hostMrWrite_of_width m x s⟩

end Sys2Proof.Machine
end

section
/-! PROOFS. The statements about memory: a write read back, the bits it leaves alone, the halves of a full
word, a write of the value already held, and the host's write with its two checks (20_memory.md R36 to R46). -/

namespace Sys2Proof.Machine

/-! ## A half-word inside its cell -/

/-- R36: the bits of the half-word at an even and at an odd address. -/
theorem getLsbD_halfOfCell (c : FullWord) (a j : Nat) :
    (halfOfCell c a).getLsbD j =
      (decide (j < 17) && c.getLsbD (if a % 2 = 0 then j else 18 + j)) := by
  unfold halfOfCell
  split <;> simp

/-- R40: the bits of a cell after one of its half-words is written. -/
theorem getLsbD_setHalfOfCell (c : FullWord) (a j : Nat) (v : HalfWord) :
    (setHalfOfCell c a v).getLsbD j =
      if a % 2 = 0 then (if j < 17 then v.getLsbD j else c.getLsbD j)
      else (if 18 ≤ j then v.getLsbD (j - 18) else c.getLsbD j) := by
  unfold setHalfOfCell
  by_cases ha : a % 2 = 0
  · rw [if_pos ha, if_pos ha, BitVec.getLsbD_append]
    by_cases hj : j < 17
    · rw [if_pos hj, if_pos hj]
    · have below : c.getLsbD j = true → j < 35 := BitVec.lt_of_getLsbD
      simpa [hj, show 17 + (j - 17) = j by omega, show j - 17 < 18 ↔ j < 35 by omega] using below
  · rw [if_neg ha, if_neg ha, BitVec.getLsbD_append]
    by_cases hj : j < 18
    · simp [hj, Nat.not_le.2 hj]
    · rw [if_neg hj, if_pos (Nat.not_lt.1 hj)]

/-- Writing the half-word a cell already holds keeps the cell (R44). -/
@[simp] theorem setHalfOfCell_halfOfCell (c : FullWord) (a : Nat) :
    setHalfOfCell c a (halfOfCell c a) = c := by
  refine BitVec.eq_of_getLsbD_eq fun j hj => ?_
  rw [getLsbD_setHalfOfCell, getLsbD_halfOfCell, getLsbD_halfOfCell]
  by_cases ha : a % 2 = 0
  · simp +contextual [ha]
  · by_cases hlow : 18 ≤ j
    · simp [ha, hlow, show j - 18 < 17 by omega]
    · simp [ha, hlow]

/-- R36: the half-word at an even address as a number. -/
theorem halfOfCell_even_toNat {a : Nat} (c : FullWord) (h : a % 2 = 0) :
    (halfOfCell c a).toNat = c.toNat % 2 ^ 17 := by
  rw [halfOfCell, if_pos h, BitVec.extractLsb'_toNat, Nat.shiftRight_zero]

/-- R36: the half-word at an odd address as a number. -/
theorem halfOfCell_odd_toNat {a : Nat} (c : FullWord) (h : a % 2 = 1) :
    (halfOfCell c a).toNat = c.toNat / 2 ^ 18 := by
  rw [halfOfCell, if_neg (by omega)]
  exact toNat_extract_high c rfl

namespace Memory

/-! ## The two halves and the whole of one cell -/

/-- R36: the even half of cell k. -/
theorem load_even_toNat (mem : Memory) (k : Nat) :
    (mem.load (2 * k) .short).toNat = (mem.cell k).toNat % 2 ^ 17 := by
  rw [Memory.load, Memory.half, Nat.mul_div_cancel_left k Nat.two_pos]
  exact halfOfCell_even_toNat _ (by omega)

/-- R36: the odd half of cell k. -/
theorem load_odd_toNat (mem : Memory) (k : Nat) :
    (mem.load (2 * k + 1) .short).toNat = (mem.cell k).toNat / 2 ^ 18 := by
  rw [Memory.load, Memory.half, show (2 * k + 1) / 2 = k by omega]
  exact halfOfCell_odd_toNat _ (by omega)

/-- R37: the full word at 2k is cell k. -/
theorem load_long (mem : Memory) (k : Nat) : mem.load (2 * k) .long = mem.cell k := by
  rw [Memory.load, Nat.mul_div_cancel_left k Nat.two_pos]

/-- R43: a full word written at 2k is what cell k then holds. -/
theorem cell_store_full (mem : Memory) (k : Nat) (v : FullWord) :
    (mem.store (2 * k) .long v).cell k = v := by
  rw [cell_store_long, if_pos (by omega)]

/-! ## What a write leaves alone -/

/-- R40: a write keeps every bit its access does not name. -/
theorem sameOutside_store (mem : Memory) (a : Nat) (m : Mode) (v : BitVec m.width) :
    Claims.SameOutside a m mem (mem.store a m v) := by
  intro k j unnamed
  by_cases hk : k = a / 2
  · subst hk
    cases m with
    | short =>
      rw [cell_store_short, if_pos rfl, getLsbD_setHalfOfCell]
      by_cases ha : a % 2 = 0
      · have high : ¬ j < 17 := by simpa [Claims.Names, ha] using unnamed
        rw [if_pos ha, if_neg high]
      · have outside : 18 ≤ j → 35 ≤ j := by simpa [Claims.Names, ha] using unnamed
        rw [if_neg ha]
        split
        · rw [BitVec.getLsbD_of_ge v _ (show 17 ≤ j - 18 by omega), BitVec.getLsbD_of_ge _ j (by omega)]
        · rfl
    | long =>
      have beyond : 35 ≤ j := by simpa [Claims.Names] using unnamed
      rw [BitVec.getLsbD_of_ge _ j beyond, BitVec.getLsbD_of_ge _ j beyond]
  · rw [cell_store_of_ne mem a k m v (Ne.symm hk)]

/-- R44: storing what an access reads keeps a canonical bank. -/
theorem store_load {mem : Memory} {a : Nat} (m : Mode) (ha : a < 1024) (hw : mem.wf = true) :
    mem.store a m (mem.load a m) = mem := by
  refine ext_of_cells (wf_store _ ha hw) hw fun k => ?_
  by_cases hk : a / 2 = k
  · subst hk
    cases m with
    | short => rw [Memory.load, Memory.half, cell_store_short, if_pos rfl, setHalfOfCell_halfOfCell]
    | long => rw [Memory.load, cell_store_long, if_pos rfl]
  · exact cell_store_of_ne mem a k m _ hk

end Memory

/-! ## Reads and writes -/

/-- Settles O14: both accesses succeed, and a load after a store returns the stored value. -/
theorem readAfterWriteReturnsValue : Obligations.ReadAfterWriteReturnsValue := by
  intro s a m v valid
  refine ⟨_, memWrite_of_valid valid, ?_⟩
  rw [memRead_of_valid valid, Memory.load_store]

/-- Settles O15: the check of the access is the stated condition, and a store keeps the unnamed bits. -/
theorem writeChangesOnlyNamedBits : Obligations.WriteChangesOnlyNamedBits := by
  intro s a m v
  rw [← validAccess_iff]
  exact ⟨fun valid => ⟨memRead_of_valid valid, _, memWrite_of_valid valid,
      Memory.sameOutside_store s.mem a m v, rfl⟩,
    fun invalid => ⟨memRead_of_not_valid invalid, memWrite_of_not_valid invalid⟩⟩

/-- Settles O16: all three accesses are taken as numbers of the one cell. -/
theorem halvesAliasTheFullWord : Obligations.HalvesAliasTheFullWord := by
  intro mem k v _
  rw [Memory.load_long, Memory.load_odd_toNat, Memory.load_even_toNat, Memory.load_even_toNat,
    Memory.load_odd_toNat, Memory.cell_store_full, BitVec.getLsbD, Nat.toNat_testBit]
  exact ⟨by omega, rfl, rfl⟩

/-- Settles O17: the value read is the load, and storing it keeps the canonical bank. -/
theorem storingTheHeldValueChangesNothing : Obligations.StoringTheHeldValueChangesNothing := by
  intro s a m v hw hread
  by_cases valid : validAccess a m = true
  · rw [memRead_of_valid valid] at hread
    cases hread
    rw [memWrite_of_valid valid, Memory.store_load m ((validAccess_iff a m).1 valid).1 hw]
  · rw [memRead_of_not_valid valid] at hread
    cases hread

/-! ## The host's write -/

@[simp] theorem hostValid_natCast (z : Nat) (m : Mode) :
    hostValid (z : Rat) m = validAccess z m := by
  simp [hostValid]

/-- R38 for the host: the valid addresses are the natural ones that are valid for the mode. -/
theorem hostValid_iff (a : Rat) (m : Mode) :
    hostValid a m = true ↔ ∃ z : Nat, a = (z : Rat) ∧ validAccess z m = true := by
  constructor
  · intro h
    simp only [hostValid, Bool.and_eq_true, beq_iff_eq, decide_eq_true_eq] at h
    obtain ⟨⟨integral, nonneg⟩, valid⟩ := h
    refine ⟨a.num.toNat, ?_, valid⟩
    rw [← Int.cast_natCast, Int.toNat_of_nonneg nonneg, (Rat.den_eq_one_iff a).1 integral]
  · rintro ⟨z, rfl, valid⟩
    rwa [hostValid_natCast]

theorem hostMemWrite_of_not_valid {a : Rat} {m : Mode} {k : Nat} (v : BitVec k) (s : State)
    (h : ¬ hostValid a m = true) : hostMemWrite a m v s = .fault (.invalidAddress a m) := if_neg h

theorem hostMemWrite_of_ne {a : Rat} {m : Mode} {k : Nat} (v : BitVec k) (s : State)
    (h : hostValid a m = true) (hk : k ≠ m.width) :
    hostMemWrite a m v s = .fault (.widthMismatch m.width k) :=
  (if_pos h).trans (dif_neg hk)

theorem hostMemWrite_of_valid {z : Nat} {m : Mode} (x : BitVec m.width) (s : State)
    (h : validAccess z m = true) :
    hostMemWrite (z : Rat) m x s = .next { s with mem := s.mem.store z m x } :=
  (if_pos ((hostValid_natCast z m).trans h)).trans (dif_pos rfl)

/-- Settles O51: `hostValid` decides between the first clause and the others, the width between those. -/
theorem hostWriteChecksAddressThenWidth : Obligations.HostWriteChecksAddressThenWidth := by
  intro s a m k v
  rw [← hostValid_iff]
  exact ⟨hostMemWrite_of_not_valid v s, hostMemWrite_of_ne v s,
    fun _ x valid => ⟨_, memWrite_of_valid valid, hostMemWrite_of_valid x s valid⟩⟩

end Sys2Proof.Machine
end

section
/-! SUPPORT. What the encoding statements rest on: the code a word is selected by, flipping the spare bit, and
the text of an order read back part by part (30_encoding.md R56 to R70). -/

namespace Sys2Proof

/-! ## Rejection -/

/-- The letters of the codec that head no order (R58). -/
def orderlessLetters : List Letter := [.B, .D, .J, .K, .M, .P, .Q, .W]

theorem orderOfLetter_eq_none (l : Letter) (sp : Bool) (n : BitVec 10) (m : Mode) :
    orderOfLetter l sp n m = none ↔ l ∈ orderlessLetters := by
  cases l <;> simp [orderOfLetter, orderlessLetters]

/-- R58: a word is rejected exactly when its op field is the code of no letter that heads an order. -/
theorem decode_eq_error_iff (w : HalfWord) :
    decode w = .error (.selectsNoOrder w) ↔
      ∀ l, letterOfCode (opField w) = some l → l ∈ orderlessLetters := by
  simp only [← orderOfLetter_eq_none _ (spareField w) (addressField w) (modeField w),
    ← Option.bind_eq_none_iff]
  unfold decode
  split
  next i hi => simp [hi]
  next hnone => simp [hnone]

/-- The codes of no letter that heads an order are the 14 of R58 (decision D2). -/
theorem orderless_iff_mem_noOrderCodes :
    ∀ c : Code, (∀ l, letterOfCode c = some l → l ∈ orderlessLetters) ↔
      c.toNat ∈ Claims.noOrderCodes := by
  decide

/-- R56: the op field is the top five bits. -/
theorem opField_toNat (w : HalfWord) : (opField w).toNat = w.toNat / 2 ^ 12 :=
  Machine.toNat_extract_high w rfl

/-! ## The spare bit -/

/-- Flipping bit 11 of a word flips its spare bit and keeps the other fields (R55). -/
theorem orderWord_xor_spare (l : Letter) (sp : Bool) (n : BitVec 10) (m : Mode) :
    orderWord l sp n m ^^^ 0x00800#17 = orderWord l (!sp) n m := by
  change (letterCode l ++ BitVec.ofBool sp ++ n ++ BitVec.ofBool m.bit) ^^^
    (0#5 ++ BitVec.ofBool true ++ 0#10 ++ 0#1) = _
  simp only [orderWord, BitVec.xor_append, BitVec.xor_zero, BitVec.ofBool_xor_ofBool, Bool.xor_true]

/-- R61 (decision D7): an order that is no shift has the same meaning with any spare bit. -/
theorem exists_order_with_spare {i : Instr} (sp : Bool) (h : Machine.isShift i = false) :
    ∃ j, orderOfLetter i.letter sp i.address i.mode = some j ∧
      ∀ s : Machine.State, Machine.exec j s = Machine.exec i s := by
  cases i
  case r => cases h
  case l => cases h
  all_goals exact ⟨_, rfl, fun _ => rfl⟩

/-! ## Text -/

@[simp] theorem letterOfChar_char (l : Letter) : letterOfChar l.char = some l := by
  cases l <;> decide

@[simp] theorem modeOfChar_char (m : Mode) : modeOfChar m.char = some m := by
  cases m <;> rfl

@[simp] theorem digitValue_modeChar (m : Mode) : digitValue m.char = none := by
  cases m <;> decide

theorem digitValue_digitChar : ∀ d < 10, digitValue (digitChar d) = some d := by
  decide

theorem readDigits_digit {d : Nat} (hd : d < 10) (v : Nat) (cs : List Char) :
    readDigits v (digitChar d :: cs) = readDigits (10 * v + d) cs := by
  rw [readDigits, digitValue_digitChar d hd]

theorem readDigits_stop {c : Char} (hc : digitValue c = none) (v : Nat) (cs : List Char) :
    readDigits v (c :: cs) = (v, c :: cs) := by
  rw [readDigits, hc]

/-- R65, R67: the decimal text of a number reads as that number, and reading goes on behind it. -/
theorem readDigits_decimal (k d : Nat) (cs : List Char) (hd : d < 10 ^ (k + 1)) :
    readDigits 0 (decimal k d ++ cs) = readDigits d cs := by
  induction k generalizing d cs with
  | zero =>
    have one_digit : d < 10 := by simpa using hd
    rw [decimal, Nat.mod_eq_of_lt one_digit, List.singleton_append, readDigits_digit one_digit,
      Nat.mul_zero, Nat.zero_add]
  | succ k ih =>
    rw [decimal]
    split
    next one_digit =>
      rw [List.singleton_append, readDigits_digit one_digit, Nat.mul_zero, Nat.zero_add]
    next =>
      have high : d / 10 < 10 ^ (k + 1) := by omega
      rw [List.append_assoc, List.singleton_append, ih _ _ high,
        readDigits_digit (Nat.mod_lt d (by decide)), Nat.div_add_mod]

/-- R67, R68: a letter, digits of value v below 1024 and a mode character are one order. -/
theorem readOrder_of_readDigits {l : Letter} {m : Mode} {v : Nat} {cs rest : List Char} (hv : v < 1024)
    (h : readDigits 0 cs = (v, m.char :: rest)) :
    readOrder (l.char :: cs) = some (orderWord l false (BitVec.ofNat 10 v) m, rest) := by
  simp only [readOrder, letterOfChar_char, h, modeOfChar_char, if_pos hv]

end Sys2Proof
end

section
/-! PROOFS. The statements about the encoding: decode and encode undo each other, the rejected words, the spare
bit, the text of an order and the example words (30_encoding.md). -/

namespace Sys2Proof

/-- Settles O9: the fields of a built word are the order's, and they select it. -/
theorem decodeOfEncode : Obligations.DecodeOfEncode := by
  intro i
  rw [encode, decode_orderWord, orderOfLetter_fields]

/-- Settles O10: a word is built from its fields, which the decoded order holds. -/
theorem encodeOfDecode : Obligations.EncodeOfDecode := fun _ _ => encode_of_decode_eq_ok

/-- Settles O11: only the op field decides, and its 32 values are checked one by one. -/
theorem rejectedExactlyOnNoOrderCodes : Obligations.RejectedExactlyOnNoOrderCodes := by
  intro w
  rw [decode_eq_error_iff, orderless_iff_mem_noOrderCodes, opField_toNat]

/-- Settles O12: the flipped word holds the same fields but the spare bit, which no meaning but a shift's uses. -/
theorem spareBitIgnored : Obligations.SpareBitIgnored := by
  intro w i hd hshift
  obtain ⟨j, hj, hexec⟩ := exists_order_with_spare (!i.spare) hshift
  obtain ⟨hl, -, hn, hm⟩ := orderOfLetter_eq_some hj
  refine ⟨j, ?_, hl, hn, hm, hexec⟩
  rw [← encode_of_decode_eq_ok hd, encode, orderWord_xor_spare, decode_orderWord, hj]

/-- Settles O53: the digits end at the mode character and read as the address. -/
theorem textOfOrderReadsBack : Obligations.TextOfOrderReadsBack := by
  intro l n m rest
  have digits : readDigits 0 (decimal 3 n.toNat ++ m.char :: rest) = (n.toNat, m.char :: rest) := by
    rw [readDigits_decimal 3 _ _ (by omega), readDigits_stop (digitValue_modeChar m)]
  have text : orderText l n m ++ rest = l.char :: (decimal 3 n.toNat ++ m.char :: rest) := by
    simp [orderText]
  rw [text, readOrder_of_readDigits n.isLt digits, BitVec.ofNat_toNat, BitVec.setWidth_eq]

/-- A word known to be an order's encoding decodes to that order. -/
theorem decode_of_encode_eq {w : HalfWord} {i : Instr} (h : encode i = w) : decode w = .ok i :=
  h ▸ decodeOfEncode i

/-- Settles O13: each of the seven words is the encoding of its order. -/
theorem exampleWordsDecode : Obligations.ExampleWordsDecode :=
  ⟨decode_of_encode_eq rfl, decode_of_encode_eq rfl, decode_of_encode_eq rfl, decode_of_encode_eq rfl,
    decode_of_encode_eq rfl, decode_of_encode_eq rfl, decode_of_encode_eq rfl⟩

end Sys2Proof
end

section
/-! PROOFS. The statements about the cycle: what an enabled step runs, the stuck core, the commit of ip, what a
failed step keeps, and an order that overwrites its own location (40_cycle.md). -/

open Sys2Proof.Claims

namespace Sys2Proof.Machine

/-! ## The two ways an enabled step ends -/

/-- An enabled step that records an error fails in the fetch or the dispatch, or its order raises (R77). -/
theorem step_fails {s t : State} {e : Fault} (he : enabled s = true) (h : step s = .next t)
    (hfault : t.fault = some e) :
    t = failed e s ∨ ∃ i r, currentOrder s = some i ∧ Raises i s e r ∧ t = failed e r := by
  obtain ht | ⟨i, hi, hend⟩ := step_ends h
  · rw [hfault] at ht
    exact .inl ht
  · cases hend with
    | completes hc =>
      rw [hc.fault, ((enabled_iff s).1 he).2] at hfault
      cases hfault
    | raises hr =>
      cases hfault
      exact .inr ⟨i, _, hi, hr, rfl⟩

/-- An enabled step that records no error has run an order. -/
theorem step_completes {s t : State} (he : enabled s = true) (h : step s = .next t)
    (hnone : t.fault = none) : ∃ i, currentOrder s = some i ∧ exec i s = .next t := by
  obtain ⟨hne, -⟩ | ⟨-, -, rfl⟩ | ⟨-, -, -, rfl⟩ | hrun := step_cases h
  · exact absurd he hne
  · cases hnone
  · cases hnone
  · exact hrun

/-! ## The commit -/

/-- R75: the pending value of ip that order i leaves to the commit in s. -/
def pendingIp (i : Instr) (s : State) : Nat :=
  match i with
  | .e _ n _ => if s.acc.toInt < 0 then s.ip + 1 else n.toNat
  | .g _ n _ => if s.acc.toInt < 0 then n.toNat else s.ip + 1
  | _ => s.ip + 1

/-- The sign bit of the accumulator is the sign of its value. -/
theorem accNegative_iff (s : State) : accNegative s = true ↔ s.acc.toInt < 0 := by
  rw [show accNegative s = s.acc.msb from (BitVec.msb_eq_getLsbD_last s.acc).symm, BitVec.msb_eq_toInt,
    decide_eq_true_iff]

/-- An order with one memory access that records no error leaves the ip of its completed state. -/
theorem access_ip {b : Bool} {n : BitVec 10} {m : Mode} {s r t : State}
    (h : (if b = true then Host.Outcome.next r else badAccess n m s) = .next t)
    (hnone : t.fault = none) : t.ip = r.ip := by
  obtain ⟨-, rfl⟩ | ⟨-, rfl⟩ := next_of_access h
  · rfl
  · cases hnone

/-- An order that completes commits its pending ip. -/
theorem exec_ip {i : Instr} {s t : State} (h : exec i s = .next t) (hnone : t.fault = none) :
    t.ip = pendingIp i s := by
  cases i
  case a => rw [exec_a] at h; exact access_ip h hnone
  case s => rw [exec_s] at h; exact access_ip h hnone
  case h => rw [exec_h] at h; exact access_ip h hnone
  case v => rw [exec_v] at h; exact access_ip h hnone
  case n => rw [exec_n] at h; exact access_ip h hnone
  case u => rw [exec_u] at h; exact access_ip h hnone
  case t => rw [exec_t] at h; exact access_ip h hnone
  case c => rw [exec_c] at h; exact access_ip h hnone
  case r => rw [exec_r] at h; split at h <;> cases h; exacts [rfl, nomatch hnone]
  case l => rw [exec_l] at h; split at h <;> cases h; exacts [rfl, nomatch hnone]
  case e => rw [exec_e] at h; cases h; simp only [pendingIp, accNegative_iff]
  case g => rw [exec_g] at h; cases h; simp only [pendingIp, accNegative_iff]
  case i =>
    by_cases ht : s.tape = []
    · cases (exec_i_of_nil _ _ _ _ ht).symm.trans h
      cases hnone
    · obtain ⟨c, rest, ht⟩ := List.exists_cons_of_ne_nil ht
      rw [exec_i_of_cons _ _ _ _ ht] at h
      exact access_ip h hnone
  case o => rw [exec_o] at h; exact access_ip h hnone
  case f => rw [exec_f] at h; exact access_ip h hnone
  case x => rw [exec_x] at h; cases h; rfl
  case y => rw [exec_y] at h; cases h; rfl
  case z => rw [exec_z] at h; cases h; rfl

/-- Settles O6: an order that raises keeps ip, and one that completes commits its pending value. -/
theorem commitIsTheOnlyWriteOfIp : Obligations.CommitIsTheOnlyWriteOfIp := by
  intro s t he h
  constructor
  · intro hfault
    obtain ⟨e, hfault⟩ := Option.ne_none_iff_exists'.1 hfault
    obtain rfl | ⟨i, r, -, hr, rfl⟩ := step_fails he h hfault
    · rfl
    · obtain ⟨-, hip, -⟩ := hr.keeps
      exact hip
  · intro hnone
    obtain ⟨i, hi, hx⟩ := step_completes he h hnone
    exact ⟨i, hi, exec_ip hx hnone⟩

/-! ## What a failed step keeps -/

/-- Settles O46: of the errors an order raises, only that of I at an odd address comes after a change. -/
theorem failureKeepsAllButTheConsumedCode : Obligations.FailureKeepsAllButTheConsumedCode := by
  intro s t e he h hfault
  obtain ht | ⟨i, r, hi, hr, ht⟩ := step_fails he h hfault
  · exact .inl ht
  · cases hr with
    | oddLong => exact .inl ht
    | emptyTape => exact .inl ht
    | emptyCount => exact .inl ht
    | oddLongInput input cons long odd =>
      obtain ⟨sp, n, m, horder⟩ := exists_orderOfLetter input
      cases horder
      cases long
      exact .inr ⟨sp, n, _, _, hi, odd, cons, rfl, ht⟩

/-! ## The stuck core -/

/-- Settles O5, by induction on the number of steps. -/
theorem stuckCoreNeverChanges : Obligations.StuckCoreNeverChanges := by
  intro s stuck k
  have disabled : ¬ enabled s = true := by
    obtain hstop | hfault := stuck
    · simp [enabled_iff, hstop]
    · simp [enabled_iff, hfault]
  induction k with
  | zero => rfl
  | succ k ih =>
    rw [runSteps, step_of_not_enabled disabled]
    exact ih

/-! ## Fetch and dispatch -/

/-- Settles O4: the fetch at or past 1024, the word that decodes, the word that does not. -/
theorem stepRunsDecodedOrder : Obligations.StepRunsDecodedOrder :=
  fun _ he => ⟨step_of_ip_ge he, fun h _ hd => step_of_decode he h hd,
    fun h _ hd => step_of_decode_error he h hd⟩

/-- Settles O7: X commits 1023 + 1, and the state there is still enabled but its fetch is out of range. -/
theorem advanceDoesNotWrap : Obligations.AdvanceDoesNotWrap := by
  intro s sp n m he hip hd
  constructor
  · rw [← hip] at hd
    rw [step_of_decode he (by omega) hd, exec_x, hip]
  · exact step_of_ip_ge (s := { s with ip := 1024 }) he le_rfl

/-- Settles O42: a short access at ip is valid, and the stored half-word reads back. -/
theorem selfStoreRunsAsFetched : Obligations.SelfStoreRunsAsFetched := by
  intro s sp n he hn hd
  have hip : s.ip < 1024 := hn ▸ n.isLt
  have valid : validAccess n.toNat .short = true := (validAccess_short _).2 n.isLt
  refine ⟨{ s with mem := s.mem.store n.toNat .short (accRead s .upper17), ip := s.ip + 1 }, ?_, ?_, rfl⟩
  · rw [step_of_decode he hip hd, exec_u, if_pos valid]
  · exact (Memory.half_store_short ..).trans (if_pos hn)

end Sys2Proof.Machine
end

section
/-! SUPPORT. What the statements about single orders rest on: the op field of a word under the mask of the
encoding table, the two ends of an order with one memory access, a view written over the accumulator, and the
scaled product as a signed number (30_encoding.md R58, 41_add_multiply.md R82 to R86). -/

open Sys2Proof.Claims

namespace Sys2Proof

/-- R55, R58: the mask 0x1F000 keeps the code of an order's letter and clears its three fields. -/
theorem orderWord_and_opMask (l : Letter) (sp : Bool) (n : BitVec 10) (m : Mode) :
    orderWord l sp n m &&& 0x1F000#17 = orderWord l false 0 .short := by
  change (letterCode l ++ BitVec.ofBool sp ++ n ++ BitVec.ofBool m.bit) &&&
    (BitVec.allOnes 5 ++ 0#1 ++ 0#10 ++ 0#1) = letterCode l ++ 0#1 ++ 0#10 ++ 0#1
  simp only [BitVec.and_append, BitVec.and_allOnes, BitVec.and_zero]

theorem AccView.width_le (v : AccView) : v.width ≤ 71 := by
  cases v <;> decide

end Sys2Proof

namespace Sys2Proof.Machine

/-! ## An order with one memory access -/

/-- R38, R77: an order whose answer is one memory access and a completed state r answers r where its operand is
reachable, and otherwise the state it runs in with the odd long address recorded. -/
theorem access_outcome {o : Host.Outcome State Fault Refusal} {n : BitVec 10} {m : Mode} {s r : State}
    {P : State → Prop} (ho : o = if validAccess n.toNat m = true then .next r else badAccess n m s)
    (hr : P r) :
    (Reachable n m → ∃ t, o = .next t ∧ P t) ∧
    (¬ Reachable n m → o = .next (failed (.invalidAddress (n.toNat : Rat) .long) s)) := by
  rw [Reachable, ← validAccess_field]
  constructor
  · intro valid
    exact ⟨r, ho.trans (if_pos valid), hr⟩
  · intro invalid
    obtain ⟨rfl, -⟩ := not_validAccess_field invalid
    exact ho.trans (if_neg invalid)

/-! ## A view written -/

/-- R19, R20: a view written before the commit reads back after it. -/
theorem accRead_written (s : State) (v : AccView) (x : BitVec v.width) (next : Nat) :
    accRead { s with acc := (accWrite s v x).acc, ip := next } v = x := by
  have commit_keeps : accRead { s with acc := (accWrite s v x).acc, ip := next } v =
      accRead (accWrite s v x) v := by cases v <;> rfl
  rw [commit_keeps, accRead_accWrite]

/-- R22, R23: a multiplier view written before the commit reads back after it. -/
theorem mrRead_written (s : State) (m : Mode) (x : BitVec m.width) (next : Nat) :
    mrRead { s with mr := (mrWrite s m x).mr, ip := next } m = x := by
  have commit_keeps : mrRead { s with mr := (mrWrite s m x).mr, ip := next } m =
      mrRead (mrWrite s m x) m := by cases m <;> rfl
  rw [commit_keeps, mrRead_mrWrite]

/-- R23: the bits below a written multiplier view are kept. -/
theorem mrWrite_low (s : State) (m : Mode) (x : BitVec m.width) :
    (mrWrite s m x).mr.toNat % 2 ^ (35 - m.width) = s.mr.toNat % 2 ^ (35 - m.width) := by
  rw [mrWrite_mr_toNat, Nat.mul_comm, Nat.mul_add_mod, Nat.mod_mod]

/-- R82: adding to a view is adding, at the view's position, to the whole accumulator. -/
theorem accWrite_add_acc_toNat (s : State) (v : AccView) (x : BitVec v.width) :
    (accWrite s v (accRead s v + x)).acc.toNat =
      (s.acc.toNat + x.toNat * 2 ^ (71 - v.width)) % 2 ^ 71 := by
  have split_width : 2 ^ 71 = 2 ^ (71 - v.width) * 2 ^ v.width := by
    rw [← Nat.pow_add, Nat.sub_add_cancel v.width_le]
  rw [split_width, Nat.mod_mul, Nat.add_mul_mod_self_right, Nat.add_mul_div_right _ _ (Nat.two_pow_pos _),
    accWrite_acc_toNat, BitVec.toNat_add, accRead_toNat, Nat.mul_comm, Nat.add_comm]

/-! ## The scaled product -/

/-- R85 (decision D4): the product of two k-bit signed numbers is exact in 2k bits. -/
theorem toInt_ofInt_toInt_mul_toInt {k : Nat} (hk : 0 < k) (x r : BitVec k) :
    (BitVec.ofInt (2 * k) (x.toInt * r.toInt)).toInt = x.toInt * r.toInt := by
  have upper : x.toInt * r.toInt ≤ 2 ^ (k * 2 - 2) := BitVec.toInt_mul_toInt_le
  have lower : -(2 ^ (k * 2 - 2)) ≤ x.toInt * r.toInt := BitVec.le_toInt_mul_toInt
  have room : (2 : Int) ^ (k * 2 - 2) < 2 ^ (2 * k - 1) := pow_lt_pow_right₀ (by decide) (by omega)
  exact BitVec.toInt_ofInt_eq_self (by omega) (by omega) (by omega)

/-- R85: the scaled product is four times the signed product, wrapped once, to 2k + 1 bits. -/
theorem scaledProduct_eq_ofInt {k : Nat} (hk : 0 < k) (x r : BitVec k) :
    scaledProduct x r = BitVec.ofInt (2 * k + 1) (4 * (x.toInt * r.toInt)) := by
  have twoPow_two : BitVec.twoPow (2 * k + 1) 2 = BitVec.ofInt (2 * k + 1) 4 :=
    BitVec.eq_of_toNat_eq (by simp [BitVec.toNat_twoPow])
  rw [scaledProduct, BitVec.signExtend, toInt_ofInt_toInt_mul_toInt hk, BitVec.shiftLeft_eq_mul_twoPow,
    twoPow_two, ← BitVec.ofInt_mul, Int.mul_comm]

/-- R85: the scaled product at the width of view m+1, in both modes. -/
theorem productFor_eq_ofInt (m : Mode) (x r : BitVec m.width) :
    productFor m x r = BitVec.ofInt m.productView.width (4 * (x.toInt * r.toInt)) := by
  cases m
  · exact scaledProduct_eq_ofInt (k := 17) (by decide) x r
  · exact scaledProduct_eq_ofInt (k := 35) (by decide) x r

end Sys2Proof.Machine
end

section
/-! PROOFS. The statements about A, S, H, V and N (41_add_multiply.md): each is the order's equation taken
through `access_outcome`, with the arithmetic of the written view. -/

namespace Sys2Proof.Machine

/-- Settles O20: the view's sum, and the same sum at the view's position in the whole accumulator. -/
theorem addOrder : Obligations.AddOrder := by
  intro sp n m s
  refine ⟨orderWord_and_opMask .A .., access_outcome (exec_a ..) ⟨?_, accWrite_low .., ?_, rfl⟩⟩
  · rw [accRead_written, BitVec.toNat_add]
  · exact accWrite_add_acc_toNat ..

/-- Settles O21: the signed difference, wrapped to the view's width. -/
theorem subtractOrder : Obligations.SubtractOrder := by
  intro sp n m s
  refine ⟨orderWord_and_opMask .S .., access_outcome (exec_s ..) ⟨?_, accWrite_low .., rfl⟩⟩
  rw [accRead_written, BitVec.toInt_sub]

/-- Settles O22: the multiplier view reads back, and the bits below it are kept. -/
theorem loadMultiplierOrder : Obligations.LoadMultiplierOrder := by
  intro sp n m s
  exact ⟨orderWord_and_opMask .H .., access_outcome (exec_h ..) ⟨mrRead_written .., mrWrite_low .., rfl⟩⟩

/-- Settles O23: the scaled product is 4·x·r wrapped to the view's width, so wrapping the sum wraps once. -/
theorem multiplyAddOrder : Obligations.MultiplyAddOrder := by
  intro sp n m s
  refine ⟨orderWord_and_opMask .V .., access_outcome (exec_v ..) ⟨?_, accWrite_low .., rfl⟩⟩
  rw [accRead_written, productFor_eq_ofInt, BitVec.toInt_add, BitVec.toInt_ofInt, Int.add_bmod_bmod]

/-- Settles O24: as V, with the difference. -/
theorem multiplySubtractOrder : Obligations.MultiplySubtractOrder := by
  intro sp n m s
  refine ⟨orderWord_and_opMask .N .., access_outcome (exec_n ..) ⟨?_, accWrite_low .., rfl⟩⟩
  rw [accRead_written, productFor_eq_ofInt, BitVec.toInt_sub, BitVec.toInt_ofInt, Int.sub_bmod_bmod]

end Sys2Proof.Machine
end

section
/-! PROOFS. The statements about U and T (42_store.md): each is the order's equation taken through
`access_outcome`, with the two laws of a memory write, that it reads back and that it keeps every bit the access
does not name. -/

namespace Sys2Proof.Machine

/-- Settles O25: the stored view reads back, and the write keeps the unnamed bits. -/
theorem storeOrder : Obligations.StoreOrder := by
  intro sp n m s
  exact ⟨orderWord_and_opMask .U .., access_outcome (exec_u ..)
    ⟨Memory.load_store .., Memory.sameOutside_store _ _ _ _, rfl⟩⟩

/-- Settles O26: as U, the view being read before the accumulator is cleared; a raise answers the state the
order runs in, accumulator and all. -/
theorem transferAndClearOrder : Obligations.TransferAndClearOrder := by
  intro sp n m s
  exact ⟨orderWord_and_opMask .T .., access_outcome (exec_t ..)
    ⟨Memory.load_store .., Memory.sameOutside_store _ _ _ _, rfl⟩⟩

end Sys2Proof.Machine
end

section
/-! SUPPORT. What the statements about the shift orders rest on: the count field of an order word as a number,
the one word of a letter that has no count, and the two ends of an order whose answer rests on the count
(30_encoding.md R62, 43_collate_shift.md R90, R91). -/

open Sys2Proof.Claims

namespace Sys2Proof

/-- R62: the count field of a word is empty exactly when the word is a multiple of 2^12. -/
theorem countField_eq_zero_iff (w : HalfWord) : countField w = 0 ↔ w.toNat % 2 ^ 12 = 0 := by
  rw [BitVec.toNat_eq, countField, BitVec.extractLsb'_toNat, Nat.shiftRight_zero]
  rfl

/-- R62: the only word of a letter with an empty count field is the one whose three fields are empty. -/
theorem orderWord_of_countField_eq_zero {l : Letter} {sp : Bool} {n : BitVec 10} {m : Mode}
    (h : countField (orderWord l sp n m) = 0) : orderWord l sp n m = orderWord l false 0 .short := by
  have fields : (sp = false ∧ n = 0) ∧ m = .short := by
    simpa [emptyCountField] using (countField_orderWord l sp n m).1 h
  obtain ⟨⟨rfl, rfl⟩, rfl⟩ := fields
  rfl

end Sys2Proof

namespace Sys2Proof.Machine

/-- R62, R77 (decision D5): an order whose answer is the accumulator f count, or the error of an empty count,
completes with f (i + 1) for the lowest set bit i of its word where the count field is not empty, and otherwise
records the malformed word. -/
theorem shift_outcome {o : Host.Outcome State Fault Refusal} {l : Letter} {sp : Bool} {n : BitVec 10}
    {m : Mode} {s : State} {f : Nat → AccWord} {P : Nat → State → Prop}
    (ho : o = match shiftCount (orderWord l sp n m) with
      | some k => .next { s with acc := f k, ip := s.ip + 1 }
      | none => .next { s with fault := some (malformed (orderWord l sp n m)) })
    (hf : ∀ i, P i { s with acc := f (i + 1), ip := s.ip + 1 }) :
    ((orderWord l sp n m).toNat % 2 ^ 12 ≠ 0 →
      ∃ i, i < 12 ∧ LowestSet (orderWord l sp n m) i ∧ ∃ t, o = .next t ∧ P i t) ∧
    ((orderWord l sp n m).toNat % 2 ^ 12 = 0 → orderWord l sp n m = orderWord l false 0 .short ∧
      o = .next (failed (malformed (orderWord l false 0 .short)) s)) := by
  rw [ne_eq, ← countField_eq_zero_iff]
  obtain ⟨empty, hk⟩ | ⟨nonempty, i, hi, set, below, hk⟩ := shiftCount_cases (orderWord l sp n m) <;>
    rw [hk] at ho
  · have word := orderWord_of_countField_eq_zero empty
    exact ⟨absurd empty, fun _ => ⟨word, word ▸ ho⟩⟩
  · exact ⟨fun _ => ⟨i, hi, ⟨set, below⟩, _, ho, hf i⟩, fun empty => absurd empty nonempty⟩

end Sys2Proof.Machine
end

section
/-! PROOFS. The statements about C, R and L (43_collate_shift.md): C is an order with one memory access, and R
and L are taken through `shift_outcome`, with the shift as a division and as a multiplication. -/

namespace Sys2Proof.Machine

/-- Settles O27: the view's sum with the bitwise AND. -/
theorem collateOrder : Obligations.CollateOrder := by
  intro sp n m s
  refine ⟨orderWord_and_opMask .C .., access_outcome (exec_c ..) ⟨?_, accWrite_low .., rfl⟩⟩
  rw [accRead_written, BitVec.toNat_add, BitVec.toNat_and]

/-- Settles O28: the arithmetic shift by k is the division by 2^k, rounding down. -/
theorem shiftRightOrder : Obligations.ShiftRightOrder := by
  intro sp n m s
  refine ⟨orderWord_and_opMask .R .., shift_outcome (exec_r ..) fun i => ⟨?_, rfl⟩⟩
  rw [BitVec.toInt_sshiftRight, Int.shiftRight_eq_div_pow, Nat.cast_pow, Nat.cast_ofNat]

/-- Settles O29: the shift by k is the multiplication by 2^k, modulo 2^71. -/
theorem shiftLeftOrder : Obligations.ShiftLeftOrder := by
  intro sp n m s
  refine ⟨orderWord_and_opMask .L .., shift_outcome (exec_l ..) fun i => ⟨?_, rfl⟩⟩
  rw [BitVec.toNat_shiftLeft, Nat.shiftLeft_eq]

end Sys2Proof.Machine
end

section
/-! SUPPORT. What the statements about the jumps rest on: the sign of the accumulator in each of its views, the
two answers of E and of G by that sign, and a run taken one step further (10_state.md R29, 44_control.md R92,
R93, 40_cycle.md R79). -/

namespace Sys2Proof.Machine

/-- R17: every view of the accumulator ends at bit 70, so its sign bit is that of the accumulator. -/
theorem accRead_msb (s : State) (v : AccView) : (accRead s v).msb = s.acc.msb := by
  cases v with
  | upper17 => simp [accRead, BitVec.msb_eq_getLsbD_last]
  | upper35 => simp [accRead, BitVec.msb_eq_getLsbD_last]
  | full => rfl

/-- R92: a view of the accumulator is negative exactly when the accumulator is. -/
theorem accRead_toInt_neg_iff (s : State) (v : AccView) :
    (accRead s v).toInt < 0 ↔ s.acc.toInt < 0 := by
  rw [← decide_eq_decide, ← BitVec.msb_eq_toInt, ← BitVec.msb_eq_toInt, accRead_msb]

section
variable (sp : Bool) (n : BitVec 10) (m : Mode) {s : State}

/-- R92: E is taken on an accumulator that is not negative. -/
theorem exec_e_of_nonneg (h : 0 ≤ s.acc.toInt) : exec (.e sp n m) s = .next { s with ip := n.toNat } := by
  rw [exec_e, if_neg (mt (accNegative_iff s).1 (not_lt.2 h))]

/-- R92: E falls through on a negative accumulator. -/
theorem exec_e_of_neg (h : s.acc.toInt < 0) : exec (.e sp n m) s = .next { s with ip := s.ip + 1 } := by
  rw [exec_e, if_pos ((accNegative_iff s).2 h)]

/-- R93: G is taken on a negative accumulator. -/
theorem exec_g_of_neg (h : s.acc.toInt < 0) : exec (.g sp n m) s = .next { s with ip := n.toNat } := by
  rw [exec_g, if_pos ((accNegative_iff s).2 h)]

/-- R93: G falls through on an accumulator that is not negative. -/
theorem exec_g_of_nonneg (h : 0 ≤ s.acc.toInt) : exec (.g sp n m) s = .next { s with ip := s.ip + 1 } := by
  rw [exec_g, if_neg (mt (accNegative_iff s).1 (not_lt.2 h))]

end

/-- R79: a run whose first step answers t goes on from t. -/
theorem runSteps_succ_of_next {s t : State} (h : step s = .next t) (k : Nat) :
    runSteps (k + 1) s = runSteps k t := by
  rw [runSteps, h]

end Sys2Proof.Machine
end

section
/-! PROOFS. The statements about E, G and the pair of them (44_control.md). -/

namespace Sys2Proof.Machine

/-- Settles O30: the two answers of E, and the sign bit every view shares with the accumulator. -/
theorem jumpIfNonNegativeOrder : Obligations.JumpIfNonNegativeOrder := by
  intro sp n m s
  exact ⟨orderWord_and_opMask .E .., exec_e_of_nonneg sp n m, exec_e_of_neg sp n m, accRead_toInt_neg_iff s⟩

/-- Settles O31: the two answers of G. -/
theorem jumpIfNegativeOrder : Obligations.JumpIfNegativeOrder := by
  intro sp n m s
  exact ⟨orderWord_and_opMask .G .., exec_g_of_neg sp n m, exec_g_of_nonneg sp n m⟩

/-- Settles O40: E jumps at once on an accumulator that is not negative; on a negative one it falls through to
G, which finds the same accumulator and jumps. -/
theorem pairOfJumpsIsUnconditional : Obligations.PairOfJumpsIsUnconditional := by
  intro s sp sp' n m m' he hip hE hG
  have stepE : step s = exec (.e sp n m) s := step_of_decode he (by omega) hE
  obtain hnonneg | hneg := le_or_gt 0 s.acc.toInt
  · have jump : step s = .next { s with ip := n.toNat } := stepE.trans (exec_e_of_nonneg sp n m hnonneg)
    exact ⟨1, .inl rfl, runSteps_succ_of_next jump 0⟩
  · have fall : step s = .next { s with ip := s.ip + 1 } := stepE.trans (exec_e_of_neg sp n m hneg)
    have jump : step { s with ip := s.ip + 1 } = .next { s with ip := n.toNat } :=
      (step_of_decode (s := { s with ip := s.ip + 1 }) he hip hG).trans (exec_g_of_neg sp' n m' hneg)
    exact ⟨2, .inr rfl, (runSteps_succ_of_next fall 1).trans (runSteps_succ_of_next jump 0)⟩

end Sys2Proof.Machine
end

section
/-! SUPPORT. What the statements about I, O and F rest on: the answer of an order whose one memory access is
reachable, the word I and F place a code in and the code O takes from a word, as numbers, and the half-word that
holds the top five bits of a cell (45_io.md R94 to R96). The code stands in the top five bits of a word of
`m.width` bits, from bit `m.width - 5` on: 12 in a half-word, 30 in a cell. -/

open Sys2Proof.Claims

namespace Sys2Proof.Machine

/-- R38: an order whose answer is one memory access and a completed state answers that state where its operand is
reachable. -/
theorem access_of_reachable {o : Host.Outcome State Fault Refusal} {n : BitVec 10} {m : Mode} {s r : State}
    (ho : o = if validAccess n.toNat m = true then .next r else badAccess n m s) (h : Reachable n m) :
    o = .next r :=
  ho.trans (if_pos ((validAccess_field n m).2 h))

/-! ## A code in a word -/

/-- A word shifted up into k more bits that have room for it is multiplied. -/
theorem toNat_setWidth_shiftLeft {w v k : Nat} (x : BitVec w) (h : w + k ≤ v) :
    (x.setWidth v <<< k).toNat = x.toNat * 2 ^ k := by
  have room : x.toNat * 2 ^ k < 2 ^ v := calc
    x.toNat * 2 ^ k < 2 ^ w * 2 ^ k := Nat.mul_lt_mul_of_pos_right x.isLt (Nat.two_pow_pos k)
    _ = 2 ^ (w + k) := (Nat.pow_add ..).symm
    _ ≤ 2 ^ v := Nat.pow_le_pow_right Nat.two_pos h
  rw [BitVec.toNat_shiftLeft, BitVec.toNat_setWidth_of_le (by omega), Nat.shiftLeft_eq, Nat.mod_eq_of_lt room]

/-- R94: the word I stores holds the code at the low end of the half-word at the top of the destination. -/
theorem inputWord_toNat (m : Mode) (c : Code) : (inputWord m c).toNat = c.toNat * 2 ^ (m.width - 17) := by
  cases m with
  | short => exact (BitVec.toNat_setWidth_of_le (by decide)).trans (Nat.mul_one _).symm
  | long => exact toNat_setWidth_shiftLeft c (by decide)

/-- R95: the code O prints is the operand without its low bits. -/
theorem outputCode_toNat (m : Mode) (x : BitVec m.width) :
    (outputCode m x).toNat = x.toNat / 2 ^ (m.width - 5) := by
  cases m with
  | short => exact toNat_extract_high (v := 17) x rfl
  | long => exact toNat_extract_high (v := 35) x rfl

/-- R96 under `F_WRITE = replace`: the code over zeros. -/
theorem reinjectWord_toNat (m : Mode) (c : Code) :
    (reinjectWord m c).toNat = c.toNat * 2 ^ (m.width - 5) := by
  cases m with
  | short => exact toNat_setWidth_shiftLeft c (by decide)
  | long => exact toNat_setWidth_shiftLeft c (by decide)

/-- R96 under `F_WRITE = merge`: the code over the low bits of the old word. -/
theorem mergeWord_toNat (m : Mode) (c : Code) (old : BitVec m.width) :
    (mergeWord m c old).toNat = c.toNat * 2 ^ (m.width - 5) + old.toNat % 2 ^ (m.width - 5) := by
  cases m with
  | short => exact toNat_append_low (v := 17) c old
  | long => exact toNat_append_low (v := 35) c old

/-- R96, R95: O takes from the word F writes the code F was given, for either value of `F_WRITE`. -/
@[simp] theorem outputCode_reinject (fw : Config.FWrite) (m : Mode) (c : Code) (old : BitVec m.width) :
    outputCode m (reinject fw m c old) = c := by
  refine BitVec.eq_of_toNat_eq ((outputCode_toNat _ _).trans ?_)
  have pos : 0 < 2 ^ (m.width - 5) := Nat.two_pow_pos _
  cases fw with
  | replace => rw [reinject, reinjectWord_toNat, Nat.mul_div_cancel _ pos]
  | merge =>
    rw [reinject, mergeWord_toNat, Nat.mul_comm, Nat.mul_add_div pos, Nat.div_eq_of_lt (Nat.mod_lt _ pos),
      Nat.add_zero]

/-! ## A cell and its odd half -/

/-- R36 (decision D3): the top five bits of cell k are those of its odd half. -/
theorem outputCode_load_long (mem : Memory) (k : Nat) :
    outputCode .long (mem.load (2 * k) .long) = outputCode .short (mem.load (2 * k + 1) .short) := by
  refine BitVec.eq_of_toNat_eq ?_
  rw [outputCode_toNat, outputCode_toNat, Memory.load_long, Memory.load_odd_toNat, Nat.div_div_eq_div_mul]
  rfl

/-- The address field after an even one does not wrap: the last even address is 1022. -/
theorem toNat_add_one_of_even {n : BitVec 10} (h : n.toNat % 2 = 0) : (n + 1).toNat = n.toNat + 1 := by
  rw [BitVec.toNat_add_of_lt (by have := n.isLt; change n.toNat + 1 < 1024; omega)]
  rfl

end Sys2Proof.Machine
end

section
/-! PROOFS. The statements about I, O and F, and about two of these orders together (45_io.md). -/

namespace Sys2Proof.Machine

/-- Settles O32: the tape decides first; with a code at its front, I is an order with one memory access in the
state that has lost the code. -/
theorem inputOrder : Obligations.InputOrder := by
  intro sp n m s
  refine ⟨orderWord_and_opMask .I .., exec_i_of_nil sp n m s, fun c rest front => ?_⟩
  refine access_outcome (exec_i_of_cons sp n m s front) ⟨?_, Memory.sameOutside_store _ _ _ _, rfl⟩
  rw [Memory.load_store, inputWord_toNat]
  cases m <;> rfl

/-- Settles O33: the code is the operand without its low bits, and the order's equation is its answer. -/
theorem outputOrder : Obligations.OutputOrder := by
  intro sp n m s
  have raises := (access_outcome (P := fun _ => True) (exec_o sp n m s) trivial).2
  refine ⟨orderWord_and_opMask .O .., fun reachable => ⟨_, ?_, access_of_reachable (exec_o ..) reachable⟩,
    raises⟩
  rw [outputCode_toNat]
  cases m <;> rfl

/-- Settles O34: as U, with the word that holds lastOut over zeros. -/
theorem reinjectOrder : Obligations.ReinjectOrder := by
  intro sp n m s
  refine ⟨orderWord_and_opMask .F .., access_outcome (exec_f ..)
    ⟨?_, Memory.sameOutside_store _ _ _ _, rfl⟩⟩
  rw [Memory.load_store, reinjectWord_toNat]
  cases m <;> rfl

/-- Settles O38: both operands are reachable, and the cell and its odd half have the same top five bits. -/
theorem longOutputIsOddHalfOutput : Obligations.LongOutputIsOddHalfOutput := by
  intro sp sp' n s even
  obtain ⟨k, hk⟩ : ∃ k, n.toNat = 2 * k := ⟨n.toNat / 2, by omega⟩
  rw [access_of_reachable (exec_o ..) (.inr even), access_of_reachable (exec_o ..) (.inl rfl),
    toNat_add_one_of_even even, hk, outputCode_load_long]

/-- Settles O39: the word F stores reads back, and O takes from it the code F was given. -/
theorem outputAfterReinjectReprints : Obligations.OutputAfterReinjectReprints := by
  refine ⟨fun sp sp' n m s reachable => ⟨_, access_of_reachable (exec_f ..) reachable, ?_⟩,
    outputCode_reinject⟩
  have reprinted : outputCode m (reinjectWord m s.lastOut) = s.lastOut := outputCode_reinject .replace m _ 0
  rw [access_of_reachable (exec_o ..) reachable, Memory.load_store, reprinted]

end Sys2Proof.Machine
end

section
/-! SUPPORT. What the statement about Y rests on: half a unit added to the accumulator, seen through its view of
mode 1, whose unit is 2^36 (10_state.md R17, 46_misc.md R98). -/

namespace Sys2Proof.Machine

/-- Half of 2^(k+1) added before a division by 2^(k+1) rounds to nearest: bit k decides, and a tie goes up. -/
theorem add_half_div_two_pow (a k : Nat) :
    (a + 2 ^ k) / 2 ^ (k + 1) = a / 2 ^ (k + 1) + a / 2 ^ k % 2 := by
  rw [Nat.pow_succ, ← Nat.div_div_eq_div_mul, ← Nat.div_div_eq_div_mul, Nat.add_div_right _ (Nat.two_pow_pos k)]
  omega

/-- R98: Y's addend is 2^35, and the sum wraps at bit 71. -/
theorem round_acc_toNat (x : AccWord) :
    (x + BitVec.twoPow 71 35).toNat = (x.toNat + 2 ^ 35) % 2 ^ 71 := by
  rw [BitVec.toNat_add, BitVec.toNat_twoPow_of_lt (by decide)]

/-- R98: an accumulator with 2^35 added holds in view 1 the old one rounded to the unit of that view. -/
theorem accRead_upper35_round {s : State} {x : AccWord} (h : s.acc = x + BitVec.twoPow 71 35) :
    (accRead s .upper35).toNat = (x.toNat / 2 ^ 36 + x.toNat / 2 ^ 35 % 2) % 2 ^ 35 := by
  have view : (accRead s .upper35).toNat = s.acc.toNat / 2 ^ 36 := accRead_toNat s .upper35
  have width : 2 ^ 71 = 2 ^ 36 * 2 ^ 35 := rfl
  calc (accRead s .upper35).toNat
      = (x.toNat + 2 ^ 35) % 2 ^ 71 / 2 ^ 36 := by rw [view, h, round_acc_toNat]
    _ = (x.toNat + 2 ^ 35) / 2 ^ 36 % 2 ^ 35 := by rw [width, Nat.mod_mul_right_div_self]
    _ = (x.toNat / 2 ^ 36 + x.toNat / 2 ^ 35 % 2) % 2 ^ 35 := by rw [add_half_div_two_pow]

end Sys2Proof.Machine
end

section
/-! PROOFS. The statements about X, Y and Z (46_misc.md). -/

namespace Sys2Proof.Machine

/-- Settles O35: the order's equation, in which no field of X occurs. -/
theorem noOperationOrder : Obligations.NoOperationOrder :=
  fun sp n m s => ⟨orderWord_and_opMask .X .., exec_x sp n m s⟩

/-- Settles O36: the addend is half the unit of view 1, so that adding it rounds the view. -/
theorem roundOrder : Obligations.RoundOrder := by
  intro sp n m s
  exact ⟨orderWord_and_opMask .Y .., _, exec_y sp n m s, round_acc_toNat s.acc, accRead_upper35_round rfl, rfl⟩

/-- Settles O37: the order's equation, and what O43 says of any core that is not running. -/
theorem stopOrder : Obligations.StopOrder := by
  intro sp n m s
  obtain ⟨-, -, -, halted⟩ := onlyStopClearsRunning
  exact ⟨orderWord_and_opMask .Z .., exec_z sp n m s, halted _ rfl⟩

end Sys2Proof.Machine
end

section
/-! SUPPORT. What the statements about the errors rest on: where in a step an error can arise, said once, and the
words a step refuses, with the two empty shifts among them (60_exceptions.md R100 to R104). -/

open Sys2Proof.Claims

namespace Sys2Proof

/-- R62 (decision D5): the words that decode to a shift with an empty count are those of R0S and L0S. -/
theorem emptyShift_iff (w : HalfWord) :
    (∃ i, decode w = .ok i ∧ Machine.isShift i = true ∧ countField w = 0) ↔
      w = 0x04000#17 ∨ w = 0x19000#17 := by
  constructor
  · rintro ⟨i, hd, shift, count⟩
    rw [← encode_of_decode_eq_ok hd] at count ⊢
    cases i
    case r => exact .inl (orderWord_of_countField_eq_zero (l := .R) count)
    case l => exact .inr (orderWord_of_countField_eq_zero (l := .L) count)
    all_goals cases shift
  · rintro (rfl | rfl)
    · exact ⟨_, decode_of_encode_eq (i := .r false 0 .short) rfl, rfl, rfl⟩
    · exact ⟨_, decode_of_encode_eq (i := .l false 0 .short) rfl, rfl, rfl⟩

end Sys2Proof

namespace Sys2Proof.Machine

/-- R58, R62: the words a step refuses, those that select no order and the shifts with an empty count. -/
def IllegalWord (w : HalfWord) : Prop :=
  decode w = .error (.selectsNoOrder w) ∨ ∃ i, decode w = .ok i ∧ isShift i = true ∧ countField w = 0

theorem illegalWord_iff (w : HalfWord) :
    IllegalWord w ↔ w.toNat / 2 ^ 12 ∈ noOrderCodes ∨ w = 0x04000#17 ∨ w = 0x19000#17 := by
  rw [IllegalWord, rejectedExactlyOnNoOrderCodes, emptyShift_iff]

/-- A shift with an empty count records its own word (R62, R104). -/
theorem exec_of_emptyCount {i : Instr} (s : State) (shift : isShift i = true)
    (count : countField (encode i) = 0) : exec i s = .next (failed (malformed (encode i)) s) := by
  have noCount : shiftCount (encode i) = none := if_pos count
  cases i
  case r => rw [exec_r]; exact noCount ▸ rfl
  case l => rw [exec_l]; exact noCount ▸ rfl
  all_goals cases shift

/-- An enabled core at an illegal word records that word (R104). -/
theorem step_of_illegalWord {s : State} (he : enabled s = true) (hip : s.ip < 1024)
    (illegal : IllegalWord (s.mem.half s.ip)) :
    step s = .next (failed (malformed (s.mem.half s.ip)) s) := by
  obtain hd | ⟨i, hd, shift, count⟩ := illegal
  · exact step_of_decode_error he hip hd
  · have word := encode_of_decode_eq_ok hd
    rw [step_of_decode he hip hd, ← word, exec_of_emptyCount s shift (word ▸ count)]

/-- The errors a step from s can record, by where they arise: in the fetch, in the dispatch, or in the order
(R76, R77, R100). -/
inductive StepRaises (s : State) : Fault → Prop where
  | fetch (past : 1024 ≤ s.ip) : StepRaises s (.invalidAddress (s.ip : Rat) .short)
  | noOrder (inRange : s.ip < 1024)
      (hd : decode (s.mem.half s.ip) = .error (.selectsNoOrder (s.mem.half s.ip))) :
      StepRaises s (malformed (s.mem.half s.ip))
  | order {i : Instr} {e : Fault} {r : State} (hi : currentOrder s = some i) (hr : Raises i s e r) :
      StepRaises s e

/-- Every error an enabled core records in a step arises in one of the three ways. -/
theorem stepRaises_of_step {s t : State} {e : Fault} (he : enabled s = true) (h : step s = .next t)
    (hfault : t.fault = some e) : StepRaises s e := by
  obtain ⟨hne, -⟩ | ⟨-, past, rfl⟩ | ⟨-, inRange, hd, rfl⟩ | ⟨i, hi, hx⟩ := step_cases h
  · exact absurd he hne
  · cases hfault
    exact .fetch past
  · cases hfault
    exact .noOrder inRange hd
  · cases exec_ends hx with
    | completes hc =>
      rw [hc.fault, ((enabled_iff s).1 he).2] at hfault
      cases hfault
    | raises hr =>
      cases hfault
      exact .order hi hr

/-- R104: a malformed order recorded by a step is the illegal word at ip, with its printable form. -/
theorem StepRaises.malformedOrder {s : State} {w : HalfWord} {p : Option (List Char)}
    (h : StepRaises s (.malformedOrder w p)) :
    s.ip < 1024 ∧ IllegalWord (s.mem.half s.ip) ∧ w = s.mem.half s.ip ∧ p = printableForm w := by
  cases h with
  | noOrder inRange hd => exact ⟨inRange, .inl hd, rfl, rfl⟩
  | order hi hr =>
    obtain ⟨-, hip, hd⟩ := currentOrder_eq_some.1 hi
    have word := encode_of_decode_eq_ok hd
    cases hr with
    | emptyCount shift count => exact ⟨hip, .inr ⟨_, hd, shift, word ▸ count⟩, word, rfl⟩

/-- I reaches memory (R49). -/
theorem accessesMemory_of_input {i : Instr} (input : i.letter = .I) : accessesMemory i = true := by
  obtain ⟨_, _, _, hi⟩ := exists_orderOfLetter input
  cases hi
  rfl

end Sys2Proof.Machine
end

section
/-! PROOFS. The statements about which step records which error (60_exceptions.md R100 to R105): the recorded
error is taken apart by where it arose. -/

namespace Sys2Proof.Machine

/-- Settles O47: of the ways an error arises only I on an empty tape is this one, and I reads the tape first. -/
theorem tapeExhaustedExactlyOnEmptyTape : Obligations.TapeExhaustedExactlyOnEmptyTape := by
  intro s t he h
  constructor
  · intro hfault
    cases stepRaises_of_step he h hfault with
    | order hi hr =>
      cases hr with
      | emptyTape input nil => exact ⟨nil, currentOrder_of_letter hi input⟩
  · rintro ⟨nil, sp, n, m, hi⟩
    rw [step_of_currentOrder hi, exec_i_of_nil sp n m s nil] at h
    cases h
    rfl

/-- Settles O48: the fetch at 1024, and the long access of an order, before or after I has consumed a code. -/
theorem invalidAddressArisesInTwoWays : Obligations.InvalidAddressArisesInTwoWays := by
  intro s t a m he hle h hfault
  cases stepRaises_of_step he h hfault with
  | fetch past =>
    have hip : s.ip = 1024 := Nat.le_antisymm hle past
    exact .inl ⟨hip, by rw [hip, Nat.cast_ofNat], rfl⟩
  | order hi hr =>
    cases hr with
    | oddLong access long odd => exact .inr ⟨_, hi, access, long, odd, rfl, rfl⟩
    | oddLongInput input _ long odd =>
      exact .inr ⟨_, hi, accessesMemory_of_input input, long, odd, rfl, rfl⟩

/-- Settles O49: a step refuses the illegal word at ip, and records no other malformed order. -/
theorem malformedOrderExactlyOnIllegalWords : Obligations.MalformedOrderExactlyOnIllegalWords := by
  intro s t he h
  rw [← illegalWord_iff]
  refine ⟨⟨?_, ?_⟩, fun w p hfault => ?_⟩
  · rintro ⟨w, p, hfault⟩
    obtain ⟨hip, illegal, -, -⟩ := (stepRaises_of_step he h hfault).malformedOrder
    exact ⟨hip, illegal⟩
  · rintro ⟨hip, illegal⟩
    cases (step_of_illegalWord he hip illegal).symm.trans h
    exact ⟨_, _, rfl⟩
  · obtain ⟨-, -, word, printed⟩ := (stepRaises_of_step he h hfault).malformedOrder
    exact ⟨word, printed⟩

/-- Settles O50: neither the fetch, nor the dispatch, nor any order raises an error of the host's calls. -/
theorem hostErrorsNeverAriseInAStep : Obligations.HostErrorsNeverAriseInAStep := by
  intro s t he h
  refine ⟨fun k l hfault => ?_, fun k hfault => ?_⟩
  · cases stepRaises_of_step he h hfault with
    | order _ hr => cases hr
  · cases stepRaises_of_step he h hfault with
    | order _ hr => cases hr

end Sys2Proof.Machine
end

section
/-! SUPPORT. What the statements about reset, the next fetch and the Loader rest on: the bank with nothing
loaded, the fetch of a word just stored, and the two halves of a load, matching the text and placing the words
(20_memory.md R53, 70_reset_and_hazards.md R119 to R125). -/

namespace Sys2Proof.Machine

/-! ## Reset and the next fetch -/

/-- R32: every half-word of the empty bank is 0. -/
@[simp] theorem Memory.half_nil (a : Nat) : Memory.half [] a = 0 := by
  rw [Memory.half, Memory.cell_nil, halfOfCell]
  split <;> rfl

/-- R119: a core just reset can step. -/
theorem enabled_resetAction (s : State) : enabled (resetAction s) = true :=
  (enabled_iff _).2 ⟨resetAction_running s, resetAction_fault s⟩

/-- The invariant's base case: the bank is empty, ip is 0, and no terminal state is left to explain. -/
theorem stateInv_resetAction (s : State) : StateInv (resetAction s) where
  mem_wf := rfl
  ip_le := Nat.zero_le 1024
  fault := faultExplained_of_none (resetAction_fault s)
  halt := haltExplained_of_running (resetAction_running s)

/-- R53, R125: a half-word stored at ip is the order an enabled core runs next. -/
theorem currentOrder_of_store_at_ip {t : State} {mem : Memory} {a : Nat} {w : HalfWord} {i : Instr}
    (he : enabled t = true) (hip : t.ip = a) (ha : a < 1024) (hmem : t.mem = mem.store a .short w)
    (hd : decode w = .ok i) : currentOrder t = some i := by
  subst hip
  have fetched : t.mem.half t.ip = w := by rw [hmem, Memory.half_store_short, if_pos rfl]
  exact currentOrder_eq_some.2 ⟨he, ha, fetched.symm ▸ hd⟩

/-! ## Placing words -/

/-- R122: the bank `after` holds the words ws at the addresses a, a + 1, … and is `before` at every other
address. -/
structure Placed (ws : List HalfWord) (a : Nat) (before after : Memory) : Prop where
  words : ∀ i w, ws[i]? = some w → after.half (a + i) = w
  frame : ∀ b, b < a ∨ a + ws.length ≤ b → after.half b = before.half b

/-- A first word stored at a, and the others placed from a + 1 on. -/
theorem Placed.cons {w : HalfWord} {ws : List HalfWord} {a : Nat} {before after : Memory}
    (h : Placed ws (a + 1) (before.store a .short w) after) : Placed (w :: ws) a before after where
  words := by
    rintro (_ | i) x hx
    · rw [Nat.add_zero, h.frame a (.inl (Nat.lt_succ_self a)), Memory.half_store_short, if_pos rfl]
      exact Option.some.inj hx
    · rw [← Nat.succ_add_eq_add_succ]
      exact h.words i x hx
  frame := by
    intro b hb
    rw [List.length_cons] at hb
    rw [h.frame b (by omega), Memory.half_store_short, if_neg (by omega)]

/-- Words that end below 1024 are all written, and nothing but memory changes. -/
theorem placeOrders_of_fits (ws : List HalfWord) (a : Nat) (s : State) (fits : a + ws.length ≤ 1024) :
    ∃ mem, placeOrders ws a s = ({ s with mem := mem }, none) ∧ Placed ws a s.mem mem := by
  induction ws generalizing a s with
  | nil => exact ⟨s.mem, rfl, nofun, fun _ _ => rfl⟩
  | cons w ws ih =>
    rw [List.length_cons] at fits
    have valid : validAccess a .short = true := (validAccess_short a).2 (by omega)
    obtain ⟨mem, hplace, placed⟩ := ih (a + 1) { s with mem := s.mem.store a .short w } (by omega)
    refine ⟨mem, ?_, placed.cons⟩
    rw [placeOrders, memWrite_of_valid valid]
    exact hplace

/-! ## A load whose words fit -/

/-- R122: a text matched to its end leaves ip at 31. -/
theorem load_of_matched {text : List Char} {ws : List HalfWord} (s : State)
    (h : readOrders text.length text = (ws, [])) (fits : 31 + ws.length ≤ 1024) :
    ∃ mem, load text s = ⟨{ s with mem := mem, ip := 31 }, none⟩ ∧ Placed ws 31 s.mem mem := by
  obtain ⟨mem, hplace, placed⟩ := placeOrders_of_fits ws 31 s fits
  refine ⟨mem, ?_, placed⟩
  simp only [load, h, hplace, if_true]

/-- R122 (decision D19): a text with an unmatched end keeps the words before it, and its ip. -/
theorem load_of_unmatched {text rest : List Char} {ws : List HalfWord} (s : State)
    (h : readOrders text.length text = (ws, rest)) (unmatched : rest ≠ []) (fits : 31 + ws.length ≤ 1024) :
    ∃ mem, load text s =
        ⟨{ s with mem := mem }, some (.malformedInput (text.length - rest.length))⟩ ∧
      Placed ws 31 s.mem mem := by
  obtain ⟨mem, hplace, placed⟩ := placeOrders_of_fits ws 31 s fits
  refine ⟨mem, ?_, placed⟩
  simp only [load, h, hplace, if_neg unmatched]

/-! ## Matching the texts of orders -/

/-- The text of a list of orders (R65). -/
def ordersText (orders : List (Letter × BitVec 10 × Mode)) : List Char :=
  orders.flatMap fun o => orderText o.1 o.2.1 o.2.2

/-- The words of a list of orders, with the spare bit 0 (R68). -/
def ordersWords (orders : List (Letter × BitVec 10 × Mode)) : List HalfWord :=
  orders.map fun o => orderWord o.1 false o.2.1 o.2.2

/-- Every order has a character of text, so the Loader's fuel suffices. -/
theorem length_le_length_ordersText (orders : List (Letter × BitVec 10 × Mode)) :
    orders.length ≤ (ordersText orders).length := by
  induction orders with
  | nil => exact le_rfl
  | cons o orders ih =>
    have head : 1 ≤ (orderText o.1 o.2.1 o.2.2).length := by simp [orderText]
    rw [ordersText] at ih ⊢
    rw [List.flatMap_cons, List.length_append, List.length_cons]
    omega

/-- R67, R68: the texts of orders read as their words, to the end of the text. -/
theorem readOrders_ordersText (orders : List (Letter × BitVec 10 × Mode)) (fuel : Nat)
    (enough : orders.length ≤ fuel) :
    readOrders fuel (ordersText orders) = (ordersWords orders, []) := by
  induction orders generalizing fuel with
  | nil => cases fuel <;> rfl
  | cons o orders ih =>
    obtain _ | fuel := fuel
    · cases enough
    · have first : readOrder (ordersText (o :: orders)) =
          some (orderWord o.1 false o.2.1 o.2.2, ordersText orders) :=
        textOfOrderReadsBack o.1 o.2.1 o.2.2 (ordersText orders)
      simp only [readOrders, first, ih fuel (Nat.le_of_succ_le_succ enough)]
      rfl

end Sys2Proof.Machine
end

section
/-! PROOFS. The statements about reset, the store seen by the next fetch, and the Loader
(70_reset_and_hazards.md). -/

open Sys2Proof.Claims

namespace Sys2Proof.Machine

/-- Settles O1, field by field. -/
theorem resetEstablishesResetValues : Obligations.ResetEstablishesResetValues :=
  fun s => ⟨Memory.cell_nil, resetAction_acc s, resetAction_mr s, resetAction_ip s, resetAction_running s,
    resetAction_lastOut s, resetAction_fault s, resetAction_tape s, resetAction_out s,
    enabled_resetAction s, rfl⟩

/-- Settles O2: the reset state is its own reset. -/
theorem resetSatisfiesInvariant : Obligations.ResetSatisfiesInvariant :=
  ⟨stateInv_resetAction State.reset, stateInv_resetAction⟩

/-- Settles O3: the half-word at 0 of the empty bank is 0, whose letter P heads no order. -/
theorem emptyMemoryFaultsAtOnce : Obligations.EmptyMemoryFaultsAtOnce := by
  intro s
  have word : (resetAction s).mem.half (resetAction s).ip = 0 := Memory.half_nil 0
  have rejected : decode 0 = .error (.selectsNoOrder 0) := by decide
  have record : malformed 0 = .malformedOrder 0 (some ['P', '0', 'S']) := by decide
  have hip : (resetAction s).ip < 1024 := Nat.zero_lt_succ 1023
  rw [step_of_decode_error (enabled_resetAction s) hip (word.symm ▸ rejected), word, record, failed]

/-- Settles O41: U and T leave the stored word at the advanced ip, in a core that is still enabled. -/
theorem storeIsSeenByNextFetch : Obligations.StoreIsSeenByNextFetch := by
  intro s sp n i he hip hn horder hi
  have valid : validAccess n.toNat .short = true := (validAccess_short _).2 n.isLt
  have stored : ∃ t, step s = .next t ∧ enabled t = true ∧ t.ip = s.ip + 1 ∧
      t.mem = s.mem.store n.toNat .short (accRead s .upper17) := by
    obtain hd | hd := horder
    · rw [step_of_decode he (by omega) hd, exec_u, if_pos valid]
      exact ⟨_, rfl, he, rfl, rfl⟩
    · rw [step_of_decode he (by omega) hd, exec_t, if_pos valid]
      exact ⟨_, rfl, he, rfl, rfl⟩
  obtain ⟨t, hstep, ht, hip, hmem⟩ := stored
  have hcur := currentOrder_of_store_at_ip ht (hip.trans hn.symm) n.isLt hmem hi
  exact ⟨t, hstep, hip, hcur, step_of_currentOrder hcur⟩

/-- Settles O54: the texts are matched to the end, and 993 words from 31 on end at 1023. -/
theorem loaderPlacesOrdersFromThirtyOne : Obligations.LoaderPlacesOrdersFromThirtyOne := by
  intro s orders hlen
  have matched := readOrders_ordersText orders _ (length_le_length_ordersText orders)
  have count : (ordersWords orders).length = orders.length := List.length_map ..
  obtain ⟨mem, hload, placed⟩ := load_of_matched s matched (by omega)
  refine ⟨mem, hload, fun i o ho => placed.words i _ ?_, count ▸ placed.frame⟩
  rw [ordersWords, List.getElem?_map, ho, Option.map_some]

/-- Settles O55: Z alone has no mode character to end it and is left unmatched; ZS is matched. -/
theorem loaderExampleOfTheSource : Obligations.LoaderExampleOfTheSource := by
  have stuck : readOrders 4 ['A', '5', 'S', 'Z'] = ([0x1C00A], ['Z']) := by decide
  have matched : readOrders 5 ['A', '5', 'S', 'Z', 'S'] = ([0x1C00A, 0x0D000], []) := by decide
  obtain ⟨mem, failure, one⟩ :=
    load_of_unmatched (text := ['A', '5', 'S', 'Z']) State.reset stuck (by decide) (by decide)
  obtain ⟨mem', success, two⟩ :=
    load_of_matched (text := ['A', '5', 'S', 'Z', 'S']) State.reset matched (by decide)
  rw [Obligations.LoaderExampleOfTheSource, failure, success]
  exact ⟨rfl, one.words 0 _ rfl, rfl, rfl, two.words 0 _ rfl, two.words 1 _ rfl, rfl⟩

end Sys2Proof.Machine
end
